-- ==== Sys2Proof/Word.lean ====
section
/-!
DEFINITION. The two value types of the machine: bytes and words (00_scope.md R5, R7).
Their arithmetic is `BitVec`'s own, which is the modular arithmetic `+8`, `-8`, `+32` of R8.
-/

namespace Sys2Proof

/-- An unsigned 8-bit value: a byte register, a memory byte, an `imm8` (R5, R7). -/
abbrev Byte := BitVec 8

/-- An unsigned 32-bit value: a word register, an address, an `imm32` (R5, R7). -/
abbrev Word := BitVec 32

end Sys2Proof
end

