-- ==== Sys2Proof/Config.lean ====
section
/-!
DEFINITION. The parameters of the implementation that 00_scope.md R6 leaves open: the nine fixed opcode bytes and
`HIGH_PAIR_MODE`. Their values for this hardware are `Config.hardware` in Decode.lean. The length `N` of the image
is fixed per run and stands in the state; `FUEL` belongs to the run interface (Machine/Run.lean).
No parameter is a free value: no rule contains a non-deterministic choice (R216).
-/

namespace Sys2Proof

/-- How a byte `0b11xxxxxx` that is no fixed code decodes (R6, R82). -/
inductive HighPairMode where
  /-- The masks of R76 as written: families 1 and 2 ignore bit 7. -/
  | literal
  /-- Families 1 and 2 need bit 7 clear: such a byte is a DecodeError. -/
  | strict
deriving DecidableEq, Repr

/-- The open parameters of the core (R6). -/
structure Config where
  opcAdd  : Byte
  opcSub  : Byte
  opcXor  : Byte
  opcCmp  : Byte
  opcOut  : Byte
  opcHalt : Byte
  opcAptr : Byte
  opcJez  : Byte
  opcJnz  : Byte
  highPairMode : HighPairMode
deriving DecidableEq, Repr

/-- The nine whole-byte opcodes, in the order in which R80 tests them. -/
def Config.fixedCodes (cfg : Config) : List Byte :=
  [cfg.opcAdd, cfg.opcSub, cfg.opcXor, cfg.opcCmp, cfg.opcOut, cfg.opcHalt, cfg.opcAptr, cfg.opcJez, cfg.opcJnz]

end Sys2Proof
end

