-- ==== Sys2Proof/Syntax.lean ====
section
/-!
DEFINITION. The 13 instructions of spec/opcode_table.json, one constructor a row, and their operand names
(10_state.md R20–R22, 30_encoding.md R71). An invalid register id (R78) has no name here: the decoder refuses it.
-/

namespace Sys2Proof

/-- The six byte registers (R20). `f` is the flag (R25). -/
inductive ByteReg where
  | a | b | c | d | e | f
deriving DecidableEq, Repr

/-- A byte operand: a byte register, or the indirect pseudo-register `ptr_c` (R21, R27). -/
inductive ByteId where
  | reg (r : ByteReg)
  | ptrC
deriving DecidableEq, Repr

/-- The six word registers (R22). -/
inductive WordReg where
  | la | lb | lc | ld | ptr | pc
deriving DecidableEq, Repr

/-- The closed instruction set (R1, R173). -/
inductive Instr where
  /-- `ADD a <- b` (R100). -/
  | add
  /-- `SUB a <- b` (R101). -/
  | sub
  /-- `XOR a <- b` (R102). -/
  | xor
  /-- `CMP` (R103). -/
  | cmp
  /-- `JEZ imm32` (R120). -/
  | jez (target : Word)
  /-- `JNZ imm32` (R121). -/
  | jnz (target : Word)
  /-- `APTR imm8` (R140). -/
  | aptr (imm : Byte)
  /-- `OUT a` (R170). -/
  | out
  /-- `HALT` (R171). -/
  | halt
  /-- `MVI dst <- imm8` (R142). -/
  | mvi (dst : ByteId) (imm : Byte)
  /-- `MV dst <- src` (R141). -/
  | mv (dst src : ByteId)
  /-- `MVI32 dst <- imm32` (R144). -/
  | mvi32 (dst : WordReg) (imm : Word)
  /-- `MV32 dst <- src` (R143). -/
  | mv32 (dst src : WordReg)
deriving DecidableEq, Repr

end Sys2Proof
end

