-- ==== Sys2Proof/Decode.lean ====
section
/-!
DEFINITION. Decoding and encoding (30_encoding.md R70–R86). `decodeBytes` is total on any list of bytes and rejects by
name; `encode` gives the canonical bytes of R86. Both read the parameters of `Config`; `Config.hardware` holds this
hardware's values.
-/

namespace Sys2Proof

/-- The values of the parameters for this hardware (R6).
The nine codes are the spec's defaults, which it marks `[from general knowledge, not in source]` (R75, D1):
PRESUMED, unsafe, notes/assumptions/1.md.
`literal` is the spec's own choice (R82, C2, D3): UNVERIFIED, unsafe, notes/assumptions/2.md. -/
def Config.hardware : Config where
  opcAdd  := 0xC2#8
  opcSub  := 0xC3#8
  opcXor  := 0xC4#8
  opcCmp  := 0xC1#8
  opcOut  := 0x02#8
  opcHalt := 0x01#8
  opcAptr := 0xE1#8
  opcJez  := 0x21#8
  opcJnz  := 0x22#8
  highPairMode := .literal

/-! ### Byte order and fields -/

/-- `le32` of R8: four bytes, the one at the lowest address least significant (R55, C1). -/
def le32 (b0 b1 b2 b3 : Byte) : Word :=
  BitVec.ofNat 32 (b0.toNat + 2 ^ 8 * b1.toNat + 2 ^ 16 * b2.toNat + 2 ^ 24 * b3.toNat)

/-- Byte `k` of a word, byte 0 the least significant. -/
def wordByte (v : Word) (k : Nat) : Byte := BitVec.ofNat 8 (v.toNat / 2 ^ (8 * k))

/-- The four bytes of an `imm32` in the order in which they follow the opcode (R74). -/
def wordBytes (v : Word) : List Byte := [wordByte v 0, wordByte v 1, wordByte v 2, wordByte v 3]

/-- The field `DDD`, `op[5:3]` (R72). -/
def fieldDDD (op : Byte) : BitVec 3 := op.extractLsb' 3 3

/-- The field `SSS`, `op[2:0]` (R72). -/
def fieldSSS (op : Byte) : BitVec 3 := op.extractLsb' 0 3

/-! ### Register ids

Which of 1..6 names which register is the spec's decision D4: UNVERIFIED, unsafe, notes/assumptions/4.md. -/

/-- The byte operand that a 3-bit id selects, none where it is invalid (R21, R78). -/
def byteIdOf (id : BitVec 3) : Option ByteId :=
  if id = 1#3 then some (.reg .a)
  else if id = 2#3 then some (.reg .b)
  else if id = 3#3 then some (.reg .c)
  else if id = 4#3 then some (.reg .d)
  else if id = 5#3 then some (.reg .e)
  else if id = 6#3 then some (.reg .f)
  else if id = 7#3 then some .ptrC
  else none

/-- The word register that a 3-bit id selects, none where it is invalid (R22, R78). -/
def wordRegOf (id : BitVec 3) : Option WordReg :=
  if id = 1#3 then some .la
  else if id = 2#3 then some .lb
  else if id = 3#3 then some .lc
  else if id = 4#3 then some .ld
  else if id = 5#3 then some .ptr
  else if id = 6#3 then some .pc
  else none

/-- The id of a byte operand (R21). -/
def byteIdCode : ByteId → BitVec 3
  | .reg .a => 1#3
  | .reg .b => 2#3
  | .reg .c => 3#3
  | .reg .d => 4#3
  | .reg .e => 5#3
  | .reg .f => 6#3
  | .ptrC   => 7#3

/-- The id of a word register (R22). -/
def wordRegCode : WordReg → BitVec 3
  | .la  => 1#3
  | .lb  => 2#3
  | .lc  => 3#3
  | .ld  => 4#3
  | .ptr => 5#3
  | .pc  => 6#3

/-! ### Decoding the opcode byte -/

/-- Why no instruction can be read. The first two are DecodeError, the last two AddressError (R200–R202). -/
inductive DecodeReject where
  /-- The opcode byte matches no fixed code and no family (R79). -/
  | noMatch (op : Byte)
  /-- A family matches, with a register id out of range (R78). -/
  | badRegister (op : Byte)
  /-- There is no opcode byte: it would lie at or past `N` (R80). -/
  | noOpcode
  /-- An immediate byte would lie at or past `N` (R80). -/
  | truncated
deriving DecidableEq, Repr

/-- What the opcode byte alone settles (R83): the instruction but for its immediate. -/
inductive Opcode where
  | add | sub | xor | cmp | out | halt
  | aptr | jez | jnz
  | mvi (dst : ByteId)
  | mv (dst src : ByteId)
  | mvi32 (dst : WordReg)
  | mv32 (dst src : WordReg)
deriving DecidableEq, Repr

/-- Family 1, `MVI`: `byteId` may refuse (R76, R78). -/
def decodeMvi (op : Byte) : Except DecodeReject Opcode :=
  match byteIdOf (fieldDDD op) with
  | some dst => .ok (.mvi dst)
  | none => .error (.badRegister op)

/-- Family 2, `MV` (R76, R78). -/
def decodeMv (op : Byte) : Except DecodeReject Opcode :=
  match byteIdOf (fieldDDD op), byteIdOf (fieldSSS op) with
  | some dst, some src => .ok (.mv dst src)
  | _, _ => .error (.badRegister op)

/-- Family 3, `MVI32` (R76, R78). -/
def decodeMvi32 (op : Byte) : Except DecodeReject Opcode :=
  match wordRegOf (fieldDDD op) with
  | some dst => .ok (.mvi32 dst)
  | none => .error (.badRegister op)

/-- Family 4, `MV32` (R76, R78). -/
def decodeMv32 (op : Byte) : Except DecodeReject Opcode :=
  match wordRegOf (fieldDDD op), wordRegOf (fieldSSS op) with
  | some dst, some src => .ok (.mv32 dst src)
  | _, _ => .error (.badRegister op)

/-- The four move families in their precedence, and the bytes that match nothing (R76, R79). -/
def decodeFamily (op : Byte) : Except DecodeReject Opcode :=
  if op &&& 0x47#8 = 0x40#8 then decodeMvi op
  else if op &&& 0x40#8 = 0x40#8 then decodeMv op
  else if op &&& 0x87#8 = 0x80#8 then decodeMvi32 op
  else if op &&& 0x80#8 = 0x80#8 then decodeMv32 op
  else .error (.noMatch op)

/-- The opcode byte decoded, tests in the order of R80: the fixed codes first (R77, D2: UNVERIFIED, unsafe,
notes/assumptions/3.md), then `HIGH_PAIR_MODE` (R82), then the families. -/
def decodeOpcode (cfg : Config) (op : Byte) : Except DecodeReject Opcode :=
  if op = cfg.opcAdd then .ok .add
  else if op = cfg.opcSub then .ok .sub
  else if op = cfg.opcXor then .ok .xor
  else if op = cfg.opcCmp then .ok .cmp
  else if op = cfg.opcOut then .ok .out
  else if op = cfg.opcHalt then .ok .halt
  else if op = cfg.opcAptr then .ok .aptr
  else if op = cfg.opcJez then .ok .jez
  else if op = cfg.opcJnz then .ok .jnz
  else if cfg.highPairMode = .strict ∧ op.extractLsb' 6 2 = 0b11#2 then .error (.noMatch op)
  else decodeFamily op

/-! ### Decoding an instruction -/

/-- The encoded width in bytes (R70, R71, R75, R76). -/
def Instr.width : Instr → Nat
  | .add | .sub | .xor | .cmp | .out | .halt | .mv _ _ | .mv32 _ _ => 1
  | .aptr _ | .mvi _ _ => 2
  | .jez _ | .jnz _ | .mvi32 _ _ => 5

/-- An instruction with an `imm8`, from the bytes after the opcode (R73). -/
def withImm8 (mk : Byte → Instr) : List Byte → Except DecodeReject Instr
  | b :: _ => .ok (mk b)
  | [] => .error .truncated

/-- An instruction with an `imm32`, from the bytes after the opcode (R74). -/
def withImm32 (mk : Word → Instr) : List Byte → Except DecodeReject Instr
  | b0 :: b1 :: b2 :: b3 :: _ => .ok (mk (le32 b0 b1 b2 b3))
  | _ => .error .truncated

/-- The instruction that an opcode and the bytes after it make; an immediate that is not there rejects (R80). -/
def Opcode.complete : Opcode → List Byte → Except DecodeReject Instr
  | .add, _ => .ok .add
  | .sub, _ => .ok .sub
  | .xor, _ => .ok .xor
  | .cmp, _ => .ok .cmp
  | .out, _ => .ok .out
  | .halt, _ => .ok .halt
  | .aptr, rest => withImm8 .aptr rest
  | .jez, rest => withImm32 .jez rest
  | .jnz, rest => withImm32 .jnz rest
  | .mvi dst, rest => withImm8 (.mvi dst) rest
  | .mv dst src, _ => .ok (.mv dst src)
  | .mvi32 dst, rest => withImm32 (.mvi32 dst) rest
  | .mv32 dst src, _ => .ok (.mv32 dst src)

/-- The instruction at the head of the bytes from `pc0` up to the end of memory, of which the first five are enough.
Checks in the order of R80 and R207: opcode present, match, register ids, immediate present (D7: UNVERIFIED, safe,
notes/assumptions/6.md). -/
def decodeBytes (cfg : Config) : List Byte → Except DecodeReject Instr
  | [] => .error .noOpcode
  | op :: rest =>
    match decodeOpcode cfg op with
    | .error r => .error r
    | .ok o => o.complete rest

/-! ### Encoding -/

/-- The canonical first byte of R86. -/
def Instr.opcodeByte (cfg : Config) : Instr → Byte
  | .add => cfg.opcAdd
  | .sub => cfg.opcSub
  | .xor => cfg.opcXor
  | .cmp => cfg.opcCmp
  | .jez _ => cfg.opcJez
  | .jnz _ => cfg.opcJnz
  | .aptr _ => cfg.opcAptr
  | .out => cfg.opcOut
  | .halt => cfg.opcHalt
  | .mvi dst _ => 0b01#2 ++ byteIdCode dst ++ 0b000#3
  | .mv dst src => 0b01#2 ++ byteIdCode dst ++ byteIdCode src
  | .mvi32 dst _ => 0b10#2 ++ wordRegCode dst ++ 0b000#3
  | .mv32 dst src => 0b10#2 ++ wordRegCode dst ++ wordRegCode src

/-- The immediate bytes that follow the opcode byte (R71, R73, R74). -/
def Instr.immediateBytes : Instr → List Byte
  | .add | .sub | .xor | .cmp | .out | .halt | .mv _ _ | .mv32 _ _ => []
  | .aptr imm | .mvi _ imm => [imm]
  | .jez imm | .jnz imm | .mvi32 _ imm => wordBytes imm

/-- The canonical encoding (R86). -/
def encode (cfg : Config) (i : Instr) : List Byte := i.opcodeByte cfg :: i.immediateBytes

/-! ### The host's view of a word -/

/-- The longest instruction, in bytes (R70). -/
def maxWidth : Nat := 5

/-- The `maxWidth` bytes of an instruction whose bits are `w`, numbered as the opcode table numbers them: the first
byte is the least significant, every bit from `nbits` up is 0. -/
def tableBytes (nbits w : Nat) : List Byte :=
  (List.range maxWidth).map fun k => BitVec.ofNat 8 (w % 2 ^ nbits / 2 ^ (8 * k))

/-- What the decoder of this hardware reads from a word of the opcode table. -/
def decodeTableWord (nbits w : Nat) : Option Instr :=
  (decodeBytes Config.hardware (tableBytes nbits w)).toOption

end Sys2Proof
end

