-- ==== Sys2Proof/Machine/State.lean ====
section
/-!
DEFINITION. The state of the core, all of it and nothing else (10_state.md R30), its state after reset (R34, R230), and
the reasons a step can stop.
-/

namespace Sys2Proof.Machine

/-- The error record of 60_exceptions.md R203: the kind, `pc0` of the failing instruction and, for a DecodeError, the
offending opcode byte. -/
inductive ErrorRecord where
  /-- No fixed code and no family matches, or a register id is out of range (R202). -/
  | decodeError (pc0 : Word) (op : Byte)
  /-- An instruction byte or a `ptr_c` access at or past `N` (R201). -/
  | addressError (pc0 : Word)
deriving DecidableEq, Repr

/-- The run status (R31). `halted` and `faulted` are terminal. -/
inductive Status where
  | running
  | halted
  | faulted (record : ErrorRecord)
deriving DecidableEq, Repr

/-- The memory image (R50): `size` is `N`, its length in bytes; `cells` lists the bytes below `N` that are not 0x00,
addresses strictly rising (`Memory.wf` in Ops.lean). What an address below `N` that is not listed reads as is `unlistedByte` in Ops.lean. -/
structure Memory where
  size  : Nat
  cells : List Host.Cell
deriving DecidableEq, Repr

/-- The complete state (R30): six byte registers (R20), six word registers (R22), the memory image (R50), the output
sequence, oldest byte first (R32), and the run status (R31). -/
structure State where
  a : Byte
  b : Byte
  c : Byte
  d : Byte
  e : Byte
  f : Byte
  la : Word
  lb : Word
  lc : Word
  ld : Word
  ptr : Word
  pc : Word
  mem : Memory
  out : List Byte
  status : Status
deriving DecidableEq, Repr

/-- The state after construction from the empty image (R34, R230): every register zero, `pc` at 0, `N = 0`, output
empty, status Running. An image is handed in from outside: `construct` in Ops.lean builds the state of R230 from one
(DESIGN CHOICE, safe: notes/assumptions/18.md). -/
def State.reset : State where
  a := 0#8
  b := 0#8
  c := 0#8
  d := 0#8
  e := 0#8
  f := 0#8
  la := 0#32
  lb := 0#32
  lc := 0#32
  ld := 0#32
  ptr := 0#32
  pc := 0#32
  mem := { size := 0, cells := [] }
  out := []
  status := .running

/-- Why a step stops although no instruction is refused. The two errors of the spec are no faults of the model: they are
taken, as a next state with status `faulted` (R81, notes/assumptions/8.md). -/
inductive Fault where
  /-- Raised by `step` alone, in a state with status `halted`: no step is defined from it (R31, U5). Safe. -/
  | stepAfterHalt
  /-- Raised by `step` alone, in a state with status `faulted record`: no step is defined from it (R31, U5). Safe. -/
  | stepAfterError (record : ErrorRecord)
deriving DecidableEq, Repr

/-- What the model gives no meaning to. -/
inductive Refusal where
  /-- Raised by an arm of `exec` for an instruction that has no meaning yet; no arm raises it now. Safe. -/
  | notModelled (mnemonic : String)
  /-- Raised by `construct` alone, for an image longer than `2^32` bytes (R51, U6). Safe. -/
  | imageTooLong (length : Nat)
deriving DecidableEq, Repr

end Sys2Proof.Machine
end

