-- ==== Sys2Proof/Machine/Ops.lean ====
section
/-!
DEFINITION. The operations that the instructions and the step share: the memory image (20_memory.md), fetching and
advancing (30_encoding.md R80), taking an error (60_exceptions.md R203–R205), the end of a run, the output sequence, and
construction (70_reset_and_hazards.md R230). There is no return from an error to model: no trap-return exists (R206).
-/

namespace Sys2Proof.Machine

/-! ### The memory image -/

/-- What an address below `N` that no cell lists reads as. DESIGN CHOICE, unsafe: notes/assumptions/19.md. -/
def unlistedByte : Byte := 0#8

/-- The canonical form of an image: addresses strictly rise, no listed byte is the one an unlisted address reads as,
every listed address is below `N`, and `N` is at most `2^32` (R51). -/
abbrev Memory.wf (m : Memory) : Prop :=
  m.cells.Pairwise (fun x y => x.1 < y.1) ∧ (∀ x ∈ m.cells, x.2 ≠ unlistedByte ∧ x.1 < m.size) ∧ m.size ≤ 2 ^ 32

/-- The byte that the cells hold at an address. -/
def lookupCell : List Host.Cell → Nat → Byte
  | [], _ => unlistedByte
  | x :: rest, addr => if x.1 = addr then x.2 else lookupCell rest addr

/-- The cells without an address. -/
def eraseCell (addr : Nat) : List Host.Cell → List Host.Cell
  | [] => []
  | x :: rest => if x.1 = addr then eraseCell addr rest else x :: eraseCell addr rest

/-- The cells with a byte put before the first higher address. -/
def insertCell (addr : Nat) (v : Byte) : List Host.Cell → List Host.Cell
  | [] => [(addr, v)]
  | x :: rest => if addr < x.1 then (addr, v) :: x :: rest else x :: insertCell addr v rest

/-- The cells after a byte is written, in canonical form again. -/
def storeCell (addr : Nat) (v : Byte) (cells : List Host.Cell) : List Host.Cell :=
  if v = unlistedByte then eraseCell addr cells else insertCell addr v (eraseCell addr cells)

/-- `MemRead(A, 1)` of R52: the byte at `A`, none where `A >= N` (R54). -/
def memRead (m : Memory) (addr : Nat) : Option Byte :=
  if addr < m.size then some (lookupCell m.cells addr) else none

/-- `MemWrite(A, 1, v)` of R52: the image with the byte at `A` replaced, none where `A >= N` (R54). -/
def memWrite (m : Memory) (addr : Nat) (v : Byte) : Option Memory :=
  if addr < m.size then some { m with cells := storeCell addr v m.cells } else none

/-! ### Taking an error -/

/-- The error is taken: the status becomes Faulted(record) and nothing else changes (R31, R81, R204, R205).
The model's form of it: DESIGN CHOICE, unsafe, notes/assumptions/8.md. -/
def takeError (record : ErrorRecord) (s : State) : State := { s with status := .faulted record }

/-- `pc0`, the address of the opcode byte (R17), from the state in which the semantics of an instruction of that width
run: the decoder has set `pc` to `pc0 +32 width` (R26). DEDUCED, safe: notes/assumptions/10.md. -/
def opcodeAddress (width : Nat) (s : State) : Word := s.pc - BitVec.ofNat 32 width

/-- How an instruction with a `ptr_c` operand ends: with its next state, or, where an access failed, in
AddressError(pc0) (R141, R142, R201). -/
def orAddressError (i : Instr) (s : State) (result : Option State) : Host.Outcome State Fault Refusal :=
  match result with
  | some t => .next t
  | none => .next (takeError (.addressError (opcodeAddress i.width s)) s)

/-- The record of an instruction that could not be decoded at `pc0` (R80, R201, R202). -/
def rejectRecord (pc0 : Word) : DecodeReject → ErrorRecord
  | .noMatch op => .decodeError pc0 op
  | .badRegister op => .decodeError pc0 op
  | .noOpcode => .addressError pc0
  | .truncated => .addressError pc0

/-- The two error kinds (R200). -/
inductive ErrorKind where
  | decodeError
  | addressError
deriving DecidableEq, Repr

/-- The kind of an error record (R203). -/
def errorKind : ErrorRecord → ErrorKind
  | .decodeError _ _ => .decodeError
  | .addressError _ => .addressError

/-- The numeric code of an error kind, the spec's own (R200, D8): UNVERIFIED, safe, notes/assumptions/7.md. -/
def errorCode : ErrorKind → Nat
  | .decodeError => 1
  | .addressError => 2

/-- `pc0` of an error record (R203). -/
def errorPc0 : ErrorRecord → Word
  | .decodeError pc0 _ => pc0
  | .addressError pc0 => pc0

/-- The offending opcode byte, which only a DecodeError carries (R203). -/
def errorOpcode : ErrorRecord → Option Byte
  | .decodeError _ op => some op
  | .addressError _ => none

/-! ### Output and halt -/

/-- `emit(v)` of R9: the byte goes to the end of the output sequence (R32). -/
def emit (v : Byte) (s : State) : State := { s with out := s.out ++ [v] }

/-- `halt` of R9: the run ends with the Halted result (R31, R171). -/
def haltRun (s : State) : State := { s with status := .halted }

/-! ### Fetch -/

/-- The image bytes at `addr` and after it, at most `count` of them, up to the end of the image. Addresses are naturals
(R80, D11: UNVERIFIED, safe, notes/assumptions/13.md). -/
def fetchBytes (m : Memory) (addr : Nat) : Nat → List Byte
  | 0 => []
  | count + 1 =>
    match memRead m addr with
    | some v => v :: fetchBytes m (addr + 1) count
    | none => []

/-- The instruction at `pc`, or why there is none (R80). -/
def fetchInstr (cfg : Config) (s : State) : Except DecodeReject Instr :=
  decodeBytes cfg (fetchBytes s.mem s.pc.toNat maxWidth)

/-- The decoder's advance of `pc` (R26, R80), modulo `2^32` (D11). -/
def advancePc (width : Nat) (s : State) : State := { s with pc := s.pc + BitVec.ofNat 32 width }

/-- Why no step is defined from a state, none while it is Running (R31, R81). -/
def stopReason (s : State) : Option Fault :=
  match s.status with
  | .running => none
  | .halted => some .stepAfterHalt
  | .faulted record => some (.stepAfterError record)

/-! ### Construction -/

/-- The cells of a byte sequence whose first byte lies at `addr`. -/
def imageCells (addr : Nat) : List Byte → List Host.Cell
  | [] => []
  | v :: rest => if v = unlistedByte then imageCells (addr + 1) rest else (addr, v) :: imageCells (addr + 1) rest

/-- `construct(image)` of R230; an image longer than `2^32` bytes is refused (R51, U6: UNVERIFIED, safe,
notes/assumptions/17.md). -/
def construct (image : List Byte) : Host.Outcome State Fault Refusal :=
  if image.length ≤ 2 ^ 32 then
    .next { State.reset with mem := { size := image.length, cells := imageCells 0 image } }
  else .refused (.imageTooLong image.length)

/-- The image with bytes put at `addr` and after it, grown where it is too short, up to `2^32` bytes: how an instruction
is placed for `State.withFetchWord` (notes/assumptions/18.md). -/
def placeBytes (m : Memory) (addr : Nat) : List Byte → Memory
  | [] => m
  | v :: rest =>
    if addr < 2 ^ 32 then
      placeBytes { size := max m.size (addr + 1), cells := storeCell addr v m.cells } (addr + 1) rest
    else m

end Sys2Proof.Machine
end

