-- ==== Sys2Proof/Machine/Operands.lean ====
section
/-!
DEFINITION. The operand forms: the byte interface over the seven byte ids and the word interface over the six word
registers (10_state.md R27–R29, 42_moves.md R145).
-/

namespace Sys2Proof.Machine

/-- The value of a byte register (R20). -/
def byteReg (r : ByteReg) (s : State) : Byte :=
  match r with
  | .a => s.a
  | .b => s.b
  | .c => s.c
  | .d => s.d
  | .e => s.e
  | .f => s.f

/-- A byte register written; `f` takes any byte (R25, D9: UNVERIFIED, unsafe, notes/assumptions/11.md). -/
def setByteReg (r : ByteReg) (v : Byte) (s : State) : State :=
  match r with
  | .a => { s with a := v }
  | .b => { s with b := v }
  | .c => { s with c := v }
  | .d => { s with d := v }
  | .e => { s with e := v }
  | .f => { s with f := v }

/-- `readW` of R29: the value of a word register. -/
def wordReg (r : WordReg) (s : State) : Word :=
  match r with
  | .la => s.la
  | .lb => s.lb
  | .lc => s.lc
  | .ld => s.ld
  | .ptr => s.ptr
  | .pc => s.pc

/-- `writeW` of R29: a word register written; a write of `pc` is an absolute jump. -/
def setWordReg (r : WordReg) (v : Word) (s : State) : State :=
  match r with
  | .la => { s with la := v }
  | .lb => { s with lb := v }
  | .lc => { s with lc := v }
  | .ld => { s with ld := v }
  | .ptr => { s with ptr := v }
  | .pc => { s with pc := v }

/-- The memory image replaced. -/
def setMem (m : Memory) (s : State) : State := { s with mem := m }

/-- The address of `ptr_c`: `x[ptr] +32 zext_32(x[c])`, computed from the current registers (R27). -/
def indirectAddress (s : State) : Word := s.ptr + s.c.setWidth 32

/-- `readB` of R28, none where the access raises AddressError (R54). -/
def readByteId (src : ByteId) (s : State) : Option Byte :=
  match src with
  | .reg r => some (byteReg r s)
  | .ptrC => memRead s.mem (indirectAddress s).toNat

/-- `writeB` of R28, none where the access raises AddressError (R54). -/
def writeByteId (dst : ByteId) (v : Byte) (s : State) : Option State :=
  match dst with
  | .reg r => some (setByteReg r v s)
  | .ptrC => (memWrite s.mem (indirectAddress s).toNat v).map fun m => setMem m s

end Sys2Proof.Machine
end

