-- ==== Sys2Proof/Machine/Flags.lean ====
section
/-!
DEFINITION. The flag register `f`: what CMP writes and how a branch reads it (10_state.md R25, 40_alu.md R103,
41_branch.md R120, R121). No other instruction computes a flag (R104).
-/

namespace Sys2Proof.Machine

/-- What CMP writes: `0x01` where the bytes differ, else `0x00` (R103). -/
def compareFlag (x y : Byte) : Byte := if x ≠ y then 0x01#8 else 0x00#8

/-- Whether `f` counts as set: every nonzero value does (R25). -/
def flagSet (s : State) : Bool := s.f != 0x00#8

end Sys2Proof.Machine
end

