-- ==== Sys2Proof/Machine/Alu.lean ====
section
/-!
DEFINITION. ADD, SUB, XOR and CMP (40_alu.md). The semantics run after the decoder advanced `pc`.
-/

namespace Sys2Proof.Machine

/-- The shared shape of ADD, SUB and XOR: `a` takes a function of `a` and `b`, and no flag changes (R104, R105). -/
def aluToA (op : Byte → Byte → Byte) (s : State) : Host.Outcome State Fault Refusal :=
  .next (setByteReg .a (op s.a s.b) s)

/-- ADD (R100). -/
def execAdd (s : State) : Host.Outcome State Fault Refusal := aluToA (fun x y => x + y) s

/-- SUB (R101). -/
def execSub (s : State) : Host.Outcome State Fault Refusal := aluToA (fun x y => x - y) s

/-- XOR (R102). -/
def execXor (s : State) : Host.Outcome State Fault Refusal := aluToA (fun x y => x ^^^ y) s

/-- CMP (R103). -/
def execCmp (s : State) : Host.Outcome State Fault Refusal := .next (setByteReg .f (compareFlag s.a s.b) s)

end Sys2Proof.Machine
end

