-- ==== Sys2Proof/Machine/Branch.lean ====
section
/-!
DEFINITION. JEZ and JNZ (41_branch.md). The target replaces `pc`, which the decoder has advanced, and is not checked here:
the next fetch does that (R122, D6: UNVERIFIED, safe, notes/assumptions/5.md).
-/

namespace Sys2Proof.Machine

/-- An absolute jump where the condition holds, else a fall-through. -/
def jumpIf (taken : Bool) (target : Word) (s : State) : Host.Outcome State Fault Refusal :=
  .next (if taken then setWordReg .pc target s else s)

/-- JEZ (R120). -/
def execJez (target : Word) (s : State) : Host.Outcome State Fault Refusal := jumpIf (!flagSet s) target s

/-- JNZ (R121). -/
def execJnz (target : Word) (s : State) : Host.Outcome State Fault Refusal := jumpIf (flagSet s) target s

end Sys2Proof.Machine
end

