-- ==== Sys2Proof/Machine/Moves.lean ====
section
/-!
DEFINITION. APTR, MV, MVI, MV32 and MVI32 (42_moves.md). The semantics run after the decoder advanced `pc`.
-/

namespace Sys2Proof.Machine

/-- APTR: the immediate is zero-extended (R140, D10: UNVERIFIED, unsafe, notes/assumptions/12.md). -/
def execAptr (imm : Byte) (s : State) : Host.Outcome State Fault Refusal :=
  .next (setWordReg .ptr (s.ptr + imm.setWidth 32) s)

/-- MV: the source is read first, then the destination is written (R141, D12: UNVERIFIED, safe,
notes/assumptions/14.md). -/
def execMv (dst src : ByteId) (s : State) : Host.Outcome State Fault Refusal :=
  orAddressError (.mv dst src) s ((readByteId src s).bind fun v => writeByteId dst v s)

/-- MVI (R142). -/
def execMvi (dst : ByteId) (imm : Byte) (s : State) : Host.Outcome State Fault Refusal :=
  orAddressError (.mvi dst imm) s (writeByteId dst imm s)

/-- MV32; a source `pc` reads the advanced value (R143). -/
def execMv32 (dst src : WordReg) (s : State) : Host.Outcome State Fault Refusal :=
  .next (setWordReg dst (wordReg src s) s)

/-- MVI32 (R144). -/
def execMvi32 (dst : WordReg) (imm : Word) (s : State) : Host.Outcome State Fault Refusal :=
  .next (setWordReg dst imm s)

end Sys2Proof.Machine
end

