-- ==== Sys2Proof/Machine/OutputHalt.lean ====
section
/-!
DEFINITION. OUT and HALT (43_output_halt.md).
-/

namespace Sys2Proof.Machine

/-- OUT (R170). -/
def execOut (s : State) : Host.Outcome State Fault Refusal := .next (emit s.a s)

/-- HALT (R171). -/
def execHalt (s : State) : Host.Outcome State Fault Refusal := .next (haltRun s)

end Sys2Proof.Machine
end

