-- ==== Sys2Proof/Machine/Dispatch.lean ====
section
/-!
DEFINITION. Stage 2 of a step (30_encoding.md R81): one arm per instruction, in the order of spec/opcode_table.json. It is
applied to a Running state whose `pc` the decoder has advanced; the run status is the step's to check
(notes/assumptions/20.md).
-/

namespace Sys2Proof.Machine

def exec (i : Instr) (s : State) : Host.Outcome State Fault Refusal :=
  match i with
  | .add => Sys2Proof.Machine.execAdd s
  | .sub => Sys2Proof.Machine.execSub s
  | .xor => Sys2Proof.Machine.execXor s
  | .cmp => Sys2Proof.Machine.execCmp s
  | .jez target => Sys2Proof.Machine.execJez target s
  | .jnz target => Sys2Proof.Machine.execJnz target s
  | .aptr imm => Sys2Proof.Machine.execAptr imm s
  | .out => Sys2Proof.Machine.execOut s
  | .halt => Sys2Proof.Machine.execHalt s
  | .mvi dst imm => Sys2Proof.Machine.execMvi dst imm s
  | .mv dst src => Sys2Proof.Machine.execMv dst src s
  | .mvi32 dst imm => Sys2Proof.Machine.execMvi32 dst imm s
  | .mv32 dst src => Sys2Proof.Machine.execMv32 dst src s

end Sys2Proof.Machine
end

