-- ==== Sys2Proof/Machine/Step.lean ====
section
/-!
DEFINITION. One step (30_encoding.md R81): decode at `pc`, which advances `pc`, then apply the semantics. `stepWith` takes
the parameters of R6; `step` is this hardware's.
-/

namespace Sys2Proof.Machine

/-- One step of the core with the parameters `cfg` (R81). From a terminal status none is defined (R31). -/
def stepWith (cfg : Config) (s : State) : Host.Outcome State Fault Refusal :=
  match stopReason s with
  | some r => .fault r
  | none =>
    match fetchInstr cfg s with
    | .error r => .next (takeError (rejectRecord s.pc r) s)
    | .ok i => exec i (advancePc i.width s)

/-- One step of this hardware. -/
def step (s : State) : Host.Outcome State Fault Refusal := stepWith Config.hardware s

/-- The state with the instruction of an opcode-table word where `step` fetches, at `pc`: the image is grown to hold it
and the status is Running, so that the next step runs it. It stands for the load of a program, which comes from outside
the machine (R10; DESIGN CHOICE, safe: notes/assumptions/18.md). -/
def State.withFetchWord (s : State) (nbits w : Nat) : State :=
  { s with mem := placeBytes s.mem s.pc.toNat (tableBytes nbits w), status := .running }

end Sys2Proof.Machine
end

