-- ==== Sys2Proof/Machine/Run.lean ====
section
/-!
DEFINITION. The run interface (00_scope.md R10, R11, R15; 70_reset_and_hazards.md R235): from an input image to the result
of a run. `OutOfFuel` is no outcome of the core (R15, D14: DESIGN CHOICE of the unbounded run's form, safe,
notes/assumptions/21.md).
-/

namespace Sys2Proof.Machine

/-- What a run returns (R235). -/
inductive RunResult where
  /-- `Halted(out)` (R11, R171). -/
  | halted (out : List Byte)
  /-- The error record (R11, R203). -/
  | error (record : ErrorRecord)
  /-- The step bound was reached first (R15). -/
  | outOfFuel
deriving DecidableEq, Repr

/-- The result that a status settles, none while it is Running (R235). -/
def resultOf (s : State) : Option RunResult :=
  match s.status with
  | .running => none
  | .halted => some (.halted s.out)
  | .faulted record => some (.error record)

/-- The run from a state, at most `fuel` steps (R15). -/
def runFrom (cfg : Config) : Nat → State → Host.Outcome RunResult Fault Refusal
  | fuel, s =>
    match resultOf s with
    | some r => .next r
    | none =>
      match fuel with
      | 0 => .next .outOfFuel
      | n + 1 =>
        match stepWith cfg s with
        | .next t => runFrom cfg n t
        | .fault r => .fault r
        | .refused r => .refused r

/-- `run(image, FUEL)` of R15. -/
def run (cfg : Config) (image : List Byte) (fuel : Nat) : Host.Outcome RunResult Fault Refusal :=
  match construct image with
  | .next s => runFrom cfg fuel s
  | .fault r => .fault r
  | .refused r => .refused r

/-- The run without a bound ends in `r` (R15, R235). -/
def RunEndsIn (cfg : Config) (image : List Byte) (r : RunResult) : Prop :=
  r ≠ .outOfFuel ∧ ∃ fuel, run cfg image fuel = .next r

/-- The run without a bound does not end (R208, R235). -/
def NeverEnds (cfg : Config) (image : List Byte) : Prop := ∀ fuel, run cfg image fuel = .next .outOfFuel

end Sys2Proof.Machine
end

