-- ==== Sys2Proof/WellFormed.lean ====
section
/-!
DEFINITION. What a parameter set and an instruction must satisfy. An operand of `Instr` cannot hold an invalid register
id, so the one check left for an instruction is that a word of `cfg` stands for it: the canonical first byte of a move
must not be one of the nine fixed codes, which the decoder tests first (R77, R86).
-/

namespace Sys2Proof

/-- The nine fixed codes are distinct bytes (R6). -/
def Config.wellFormed (cfg : Config) : Bool := decide cfg.fixedCodes.Nodup

/-- The canonical encoding of the instruction is its own under `cfg` (R86). -/
def Instr.wellFormed (cfg : Config) : Instr → Bool
  | .add | .sub | .xor | .cmp | .jez _ | .jnz _ | .aptr _ | .out | .halt => true
  | .mvi dst imm => decide (Instr.opcodeByte cfg (.mvi dst imm) ∉ cfg.fixedCodes)
  | .mv dst src => decide (Instr.opcodeByte cfg (.mv dst src) ∉ cfg.fixedCodes)
  | .mvi32 dst imm => decide (Instr.opcodeByte cfg (.mvi32 dst imm) ∉ cfg.fixedCodes)
  | .mv32 dst src => decide (Instr.opcodeByte cfg (.mv32 dst src) ∉ cfg.fixedCodes)

end Sys2Proof
end

