-- ==== Sys2Proof/Safety.lean ====
section
/-!
DEFINITION. The terms in which claims about the machine are stated: what stands in memory, what a step leaves unchanged,
the machine's invariant, and a safe run.
-/

namespace Sys2Proof.Machine

/-- The bytes stand in the image at `addr` and after it, all of them below `N`. -/
abbrev HoldsAt (m : Memory) (addr : Nat) (bytes : List Byte) : Prop :=
  ∀ k, (h : k < bytes.length) → memRead m (addr + k) = some bytes[k]

/-- Two images read the same at every address. -/
def ReadsSame (m n : Memory) : Prop := ∀ addr, memRead m addr = memRead n addr

/-- `t` is `s` but for the byte registers, the word registers and the memory addresses listed: every other register,
every other byte of memory, the length of memory, the output sequence and the run status are unchanged. -/
def SameBut (bytes : List ByteReg) (words : List WordReg) (addrs : List Nat) (s t : State) : Prop :=
  (∀ r, r ∉ bytes → byteReg r t = byteReg r s) ∧
  (∀ r, r ∉ words → wordReg r t = wordReg r s) ∧
  t.mem.size = s.mem.size ∧
  (∀ addr, addr ∉ addrs → memRead t.mem addr = memRead s.mem addr) ∧
  t.out = s.out ∧
  t.status = s.status

/-- A Running core whose memory holds `bytes` at `pc` takes one step: `pc` moves past the bytes, then `effect` applies
(R81), whatever the distinct values of the fixed codes. -/
def StepsAs (bytes : Config → List Byte) (effect : State → State) : Prop :=
  ∀ (cfg : Config) (s : State), cfg.wellFormed = true → s.status = .running →
    HoldsAt s.mem s.pc.toNat (bytes cfg) →
    stepWith cfg s = .next (effect { s with pc := s.pc + BitVec.ofNat 32 (bytes cfg).length })

/-- The invariant of the machine: the memory image is in canonical form and addressable (R50, R51). -/
abbrev ImageInv (s : State) : Prop := s.mem.wf

/-- A safe run: without a step bound it ends in Halted, not in an error (R235). -/
def SafeRun (cfg : Config) (image : List Byte) : Prop := ∃ out, RunEndsIn cfg image (.halted out)

end Sys2Proof.Machine
end

