-- ==== Sys2Proof/Certificates/Slice0/Obligations.lean ====
section
/-!
DEFINITION. The statements for the provers, one `def Obligations.<Name> : Prop` each, listed in OBLIGATIONS.json.
`exec` is applied to a state whose `pc` the decoder has advanced, so the instruction's own address is `pc` less its width.
-/

open Sys2Proof Sys2Proof.Machine

/-! ### The ALU instructions (40_alu.md) -/

/-- R100. ADD completes in every state: `a` becomes the sum modulo 256, nothing else changes; and a step at the byte
`OPC_ADD`, whatever its value, does that and moves `pc` by 1. -/
def Obligations.AddWritesTheSumModulo256 : Prop :=
  (∀ s, exec .add s = .next { s with a := BitVec.ofNat 8 ((s.a.toNat + s.b.toNat) % 256) }) ∧
  StepsAs (fun cfg => [cfg.opcAdd]) (fun s => { s with a := BitVec.ofNat 8 ((s.a.toNat + s.b.toNat) % 256) })

/-- R101. SUB completes in every state: `a` becomes `(a - b + 256) mod 256`, nothing else changes; and a step at the byte
`OPC_SUB` does that and moves `pc` by 1. -/
def Obligations.SubWritesTheDifferenceModulo256 : Prop :=
  (∀ s, exec .sub s = .next { s with a := BitVec.ofNat 8 ((s.a.toNat + 256 - s.b.toNat) % 256) }) ∧
  StepsAs (fun cfg => [cfg.opcSub]) (fun s => { s with a := BitVec.ofNat 8 ((s.a.toNat + 256 - s.b.toNat) % 256) })

/-- R102. XOR completes in every state: `a` becomes the bitwise exclusive-or of `a` and `b`, nothing else changes;
and a step at the byte `OPC_XOR` does that and moves `pc` by 1. -/
def Obligations.XorWritesTheBitwiseExclusiveOr : Prop :=
  (∀ s, exec .xor s = .next { s with a := s.a ^^^ s.b }) ∧
  StepsAs (fun cfg => [cfg.opcXor]) (fun s => { s with a := s.a ^^^ s.b })

/-- R103. CMP completes in every state: `f` becomes `0x00` where `a` and `b` are equal and `0x01` where they differ,
nothing else changes; and a step at the byte `OPC_CMP` does that and moves `pc` by 1. -/
def Obligations.CmpWritesWhetherTheBytesDiffer : Prop :=
  (∀ s, exec .cmp s = .next { s with f := if s.a = s.b then 0x00#8 else 0x01#8 }) ∧
  StepsAs (fun cfg => [cfg.opcCmp]) (fun s => { s with f := if s.a = s.b then 0x00#8 else 0x01#8 })

/-- R105. An ALU instruction makes no data access: it does the same over any other image, and it changes no byte of
this one. It leaves the advanced `pc` and the run status, and the next instruction is fetched at `pc0 +32 1`. -/
def Obligations.AluInstructionsOnlyComputeAndFallThrough : Prop :=
  ∀ i, i = .add ∨ i = .sub ∨ i = .xor ∨ i = .cmp →
    (∀ s, ∃ t, exec i s = .next t ∧ (∀ m, exec i (setMem m s) = .next (setMem m t)) ∧
      t.mem = s.mem ∧ t.pc = s.pc ∧ t.status = s.status) ∧
    (∀ cfg s t, s.status = .running → fetchInstr cfg s = .ok i → stepWith cfg s = .next t →
      t.pc = s.pc + 1#32 ∧ t.mem = s.mem ∧ t.status = .running)

/-- The frame of the ALU instructions: ADD, SUB and XOR change `a` alone, CMP changes `f` alone (R100–R105). -/
def Obligations.AluFrame : Prop :=
  ∀ s t, (∀ i, i = .add ∨ i = .sub ∨ i = .xor → exec i s = .next t → SameBut [.a] [] [] s t) ∧
    (exec .cmp s = .next t → SameBut [.f] [] [] s t)

/-! ### Branches (41_branch.md) -/

/-- R120. JEZ completes in every state: where `f` is zero `pc` becomes the target, whatever the target, else it keeps
the advanced value; nothing else changes. A step at `OPC_JEZ` and four bytes takes them as a little-endian target. Where
the opcode byte or one of the four lies at or past `N`, the step ends in AddressError at the instruction, and where the
target does, that error comes at the next fetch: these two are the spec's own decision D6 (log 5). The record's content is
its decision D8 (log 7), and that it stands in a next state the model's choice (log 8). -/
def Obligations.JezJumpsWhereTheFlagIsZero : Prop :=
  (∀ target s, exec (.jez target) s = .next { s with pc := if s.f = 0x00#8 then target else s.pc }) ∧
  (∀ b0 b1 b2 b3 : Byte, StepsAs (fun cfg => [cfg.opcJez, b0, b1, b2, b3])
    (fun s =>
      let target := BitVec.ofNat 32 (b0.toNat + 2 ^ 8 * b1.toNat + 2 ^ 16 * b2.toNat + 2 ^ 24 * b3.toNat)
      { s with pc := if s.f = 0x00#8 then target else s.pc })) ∧
  (∀ (cfg : Config) (s : State), cfg.wellFormed = true → s.status = .running →
    s.mem.size ≤ s.pc.toNat ∨ (memRead s.mem s.pc.toNat = some cfg.opcJez ∧ s.mem.size ≤ s.pc.toNat + 4) →
    stepWith cfg s = .next { s with status := .faulted (.addressError s.pc) }) ∧
  (∀ (cfg : Config) (target : Word) (s t : State), exec (.jez target) s = .next t → s.f = 0x00#8 →
    s.status = .running → s.mem.size ≤ target.toNat →
    stepWith cfg t = .next { t with status := .faulted (.addressError target) })

/-- R121. JNZ: as JEZ, taken where `f` is any nonzero value. When an address is checked is
the spec's decision D6 (log 5), the record's content its decision D8 (log 7), and that it stands in a next state the model's
choice (log 8). -/
def Obligations.JnzJumpsWhereTheFlagIsNotZero : Prop :=
  (∀ target s, exec (.jnz target) s = .next { s with pc := if s.f = 0x00#8 then s.pc else target }) ∧
  (∀ b0 b1 b2 b3 : Byte, StepsAs (fun cfg => [cfg.opcJnz, b0, b1, b2, b3])
    (fun s =>
      let target := BitVec.ofNat 32 (b0.toNat + 2 ^ 8 * b1.toNat + 2 ^ 16 * b2.toNat + 2 ^ 24 * b3.toNat)
      { s with pc := if s.f = 0x00#8 then s.pc else target })) ∧
  (∀ (cfg : Config) (s : State), cfg.wellFormed = true → s.status = .running →
    s.mem.size ≤ s.pc.toNat ∨ (memRead s.mem s.pc.toNat = some cfg.opcJnz ∧ s.mem.size ≤ s.pc.toNat + 4) →
    stepWith cfg s = .next { s with status := .faulted (.addressError s.pc) }) ∧
  (∀ (cfg : Config) (target : Word) (s t : State), exec (.jnz target) s = .next t → s.f ≠ 0x00#8 →
    s.status = .running → s.mem.size ≤ target.toNat →
    stepWith cfg t = .next { t with status := .faulted (.addressError target) })

/-- R122. The only ways `pc` changes in a step of a decoded instruction: the decoder's advance, JEZ or JNZ taken, MV32 or
MVI32 with destination `pc`. MV32 reads the advanced `pc` (R26). That the advance wraps is the spec's decision D11 (log 13),
that a target is not checked when written its decision D6 (log 5). -/
def Obligations.ThePcChangesOnlyInTheWaysTheSpecLists : Prop :=
  ∀ cfg s t i, s.status = .running → fetchInstr cfg s = .ok i → stepWith cfg s = .next t →
    let next := s.pc + BitVec.ofNat 32 i.width
    t.pc = next ∨
    (∃ target, i = .jez target ∧ s.f = 0x00#8 ∧ t.pc = target) ∨
    (∃ target, i = .jnz target ∧ s.f ≠ 0x00#8 ∧ t.pc = target) ∨
    (∃ src, i = .mv32 .pc src ∧ src ≠ .pc ∧ t.pc = wordReg src s) ∨
    (∃ imm, i = .mvi32 .pc imm ∧ t.pc = imm)

/-! ### Pointer and moves (42_moves.md) -/

/-- R140. APTR completes in every state: `ptr` becomes the sum with the immediate modulo 2^32, nothing else changes; and a
step at `OPC_APTR` and that byte does that and moves `pc` by 2. That the immediate is unsigned is the spec's own decision
D10 (log 12). -/
def Obligations.AptrAddsTheUnsignedByteToPtr : Prop :=
  (∀ imm s, exec (.aptr imm) s = .next { s with ptr := BitVec.ofNat 32 ((s.ptr.toNat + imm.toNat) % 2 ^ 32) }) ∧
  (∀ imm : Byte, StepsAs (fun cfg => [cfg.opcAptr, imm])
    (fun s => { s with ptr := BitVec.ofNat 32 ((s.ptr.toNat + imm.toNat) % 2 ^ 32) }))

/-- R141, R145. MV into a register completes: from a register in every state, from `ptr_c` where the address, computed
with the `ptr` and `c` before the move, is below `N`. The register takes the source's value. That the source is read
first is the spec's decision D12 (log 14). -/
def Obligations.MvIntoARegisterTakesTheSourceByte : Prop :=
  (∀ dst src s, ∃ t, exec (.mv (.reg dst) (.reg src)) s = .next t ∧
    byteReg dst t = byteReg src s ∧ SameBut [dst] [] [] s t) ∧
  (∀ dst s, (s.ptr.toNat + s.c.toNat) % 2 ^ 32 < s.mem.size → ∃ t, exec (.mv (.reg dst) .ptrC) s = .next t ∧
    memRead s.mem ((s.ptr.toNat + s.c.toNat) % 2 ^ 32) = some (byteReg dst t) ∧ SameBut [dst] [] [] s t)

/-- R141, R145. MV into `ptr_c` completes where the address is below `N`: the byte there takes the source's value and
every other byte and every register is unchanged; from `ptr_c` itself no byte changes. That the source is read first is
the spec's decision D12 (log 14). -/
def Obligations.MvIntoMemoryStoresTheSourceByte : Prop :=
  ∀ s, (s.ptr.toNat + s.c.toNat) % 2 ^ 32 < s.mem.size →
    (∀ src, ∃ t, exec (.mv .ptrC (.reg src)) s = .next t ∧
      memRead t.mem (indirectAddress s).toNat = some (byteReg src s) ∧
      SameBut [] [] [(indirectAddress s).toNat] s t) ∧
    (∃ t, exec (.mv .ptrC .ptrC) s = .next t ∧ SameBut [] [] [] s t)

/-- R142. MVI completes: into a register in every state, into `ptr_c` where the address is below `N`. The destination
takes the immediate. -/
def Obligations.MviWritesTheImmediateByte : Prop :=
  (∀ dst imm s, ∃ t, exec (.mvi (.reg dst) imm) s = .next t ∧ byteReg dst t = imm ∧ SameBut [dst] [] [] s t) ∧
  (∀ imm s, (s.ptr.toNat + s.c.toNat) % 2 ^ 32 < s.mem.size → ∃ t, exec (.mvi .ptrC imm) s = .next t ∧
    memRead t.mem (indirectAddress s).toNat = some imm ∧ SameBut [] [] [(indirectAddress s).toNat] s t)

/-- R141, R142, R201. A `ptr_c` operand whose address is at or past `N` ends the move in AddressError at the move's own
opcode byte, with nothing written; the address is not reduced into memory (R54). The record's `pc0` is the spec's decision
D8 (log 7), that it stands in a next state the model's choice (log 8), and `pc` less the width the model's way to its `pc0`
(log 10, DEDUCED). -/
def Obligations.MovesThroughPtrCOutOfRangeTakeAddressError : Prop :=
  ∀ s, s.mem.size ≤ (s.ptr.toNat + s.c.toNat) % 2 ^ 32 →
    (∀ dst src, dst = .ptrC ∨ src = .ptrC →
      exec (.mv dst src) s = .next { s with status := .faulted (.addressError (s.pc - 1#32)) }) ∧
    (∀ imm, exec (.mvi .ptrC imm) s = .next { s with status := .faulted (.addressError (s.pc - 2#32)) })

/-- R143. MV32 completes in every state: the destination takes the source's value, of a source `pc` the advanced one, and
nothing else changes. -/
def Obligations.Mv32CopiesAWordRegister : Prop :=
  ∀ dst src s, ∃ t, exec (.mv32 dst src) s = .next t ∧ wordReg dst t = wordReg src s ∧ SameBut [] [dst] [] s t

/-- R144. MVI32 completes in every state: the destination takes the immediate, and nothing else changes. -/
def Obligations.Mvi32WritesTheImmediateWord : Prop :=
  ∀ dst imm s, ∃ t, exec (.mvi32 dst imm) s = .next t ∧ wordReg dst t = imm ∧ SameBut [] [dst] [] s t

/-- The frame of the moves into a byte register: the destination alone changes, or, where a `ptr_c` source is out of
range, the run status alone (R141, R142, R205). The record's content is the spec's decision D8 (log 7), that it stands in a
next state the model's choice (log 8), and `pc` less the width the model's way to its `pc0` (log 10, DEDUCED). -/
def Obligations.ByteRegisterMoveFrame : Prop :=
  ∀ dst src imm s t,
    (exec (.mv (.reg dst) src) s = .next t →
      SameBut [dst] [] [] s t ∨
      (src = .ptrC ∧ memRead s.mem (indirectAddress s).toNat = none ∧
        t = { s with status := .faulted (.addressError (s.pc - 1#32)) })) ∧
    (exec (.mvi (.reg dst) imm) s = .next t → SameBut [dst] [] [] s t)

/-- The frame of the moves into memory: every register is unchanged, and so is every byte but the one at the address of
`ptr_c`; where that address is out of range the run status alone changes (R141, R142, R205). The record's content is the
spec's decision D8 (log 7), that it stands in a next state the model's choice (log 8), and `pc` less the width the model's
way to its `pc0` (log 10, DEDUCED). -/
def Obligations.StoreFrame : Prop :=
  ∀ src imm s t,
    (exec (.mv .ptrC src) s = .next t →
      SameBut [] [] [(indirectAddress s).toNat] s t ∨
      (memRead s.mem (indirectAddress s).toNat = none ∧
        t = { s with status := .faulted (.addressError (s.pc - 1#32)) })) ∧
    (exec (.mvi .ptrC imm) s = .next t →
      SameBut [] [] [(indirectAddress s).toNat] s t ∨
      (memRead s.mem (indirectAddress s).toNat = none ∧
        t = { s with status := .faulted (.addressError (s.pc - 2#32)) }))

/-- The frame of the instructions over word registers: JEZ and JNZ change `pc` alone, APTR `ptr` alone, MV32 and MVI32
their destination alone (R120, R121, R140, R143, R144). -/
def Obligations.BranchAndWordMoveFrame : Prop :=
  ∀ s t,
    (∀ target, exec (.jez target) s = .next t ∨ exec (.jnz target) s = .next t → SameBut [] [.pc] [] s t) ∧
    (∀ imm, exec (.aptr imm) s = .next t → SameBut [] [.ptr] [] s t) ∧
    (∀ dst src imm, exec (.mv32 dst src) s = .next t ∨ exec (.mvi32 dst imm) s = .next t → SameBut [] [dst] [] s t)

/-! ### Output and halt (43_output_halt.md) -/

/-- R170. OUT completes in every state: the output sequence grows by `a` at its end, and no register, byte of memory or
status changes; a step at the byte `OPC_OUT` does that and moves `pc` by 1. No other instruction writes the output. -/
def Obligations.OutAppendsTheByteA : Prop :=
  (∀ s, exec .out s = .next { s with out := s.out ++ [s.a] }) ∧
  StepsAs (fun cfg => [cfg.opcOut]) (fun s => { s with out := s.out ++ [s.a] }) ∧
  (∀ i s t, exec i s = .next t → i ≠ .out → t.out = s.out)

/-- R171. HALT completes in every state: the run status becomes Halted and nothing else changes, so the result is
Halted(out). A step at the byte `OPC_HALT` does that and moves `pc` by 1, no step is defined after it, and a Running core
becomes Halted by no other instruction. -/
def Obligations.HaltEndsTheRunWithTheOutput : Prop :=
  (∀ s, exec .halt s = .next { s with status := .halted } ∧
    resultOf { s with status := .halted } = some (.halted s.out)) ∧
  StepsAs (fun cfg => [cfg.opcHalt]) (fun s => { s with status := .halted }) ∧
  (∀ cfg s t, s.status = .halted → stepWith cfg s ≠ .next t) ∧
  (∀ cfg s t, s.status = .running → stepWith cfg s = .next t → t.status = .halted → fetchInstr cfg s = .ok .halt)

/-! ### Which instruction reaches which state -/

/-- R23, R53, R146. The whole table of writers: a byte register is written only by a move into it, `a` also by ADD, SUB and
XOR, `f` also by CMP; a word register only by a word move into it, `ptr` also by APTR, `pc` also by JEZ and JNZ; memory
only by a byte move into `ptr_c`; the output only by OUT; the run status only by HALT, or by an AddressError of a `ptr_c`
operand. Those rules do not give the error's record: its content is the spec's decision D8 (R203, log 7), that it stands in
a next state the model's choice (log 8), and `pc` less the width the model's way to its `pc0` (log 10, DEDUCED). -/
def Obligations.EachPartOfTheStateHasOnlyItsNamedWriters : Prop :=
  ∀ i s t, exec i s = .next t →
    (∀ r, byteReg r t ≠ byteReg r s →
      (∃ src, i = .mv (.reg r) src) ∨ (∃ imm, i = .mvi (.reg r) imm) ∨
      (r = .a ∧ (i = .add ∨ i = .sub ∨ i = .xor)) ∨ (r = .f ∧ i = .cmp)) ∧
    (∀ r, wordReg r t ≠ wordReg r s →
      (∃ src, i = .mv32 r src) ∨ (∃ imm, i = .mvi32 r imm) ∨
      (r = .ptr ∧ ∃ imm, i = .aptr imm) ∨ (r = .pc ∧ ∃ target, i = .jez target ∨ i = .jnz target)) ∧
    (t.mem ≠ s.mem → (∃ src, i = .mv .ptrC src) ∨ (∃ imm, i = .mvi .ptrC imm)) ∧
    (t.out ≠ s.out → i = .out) ∧
    (t.status ≠ s.status → i = .halt ∨
      (t.status = .faulted (.addressError (s.pc - BitVec.ofNat 32 i.width)) ∧
        ((∃ src, i = .mv .ptrC src) ∨ (∃ dst, i = .mv dst .ptrC) ∨ (∃ imm, i = .mvi .ptrC imm))))

/-- R53, R145. An instruction without a `ptr_c` operand makes no data access: over any other image it does the same to
the rest of the state, and it leaves the image as it is. -/
def Obligations.OnlyPtrCOperandsReachDataMemory : Prop :=
  ∀ i s t m, (∀ src, i ≠ .mv .ptrC src) → (∀ dst, i ≠ .mv dst .ptrC) → (∀ imm, i ≠ .mvi .ptrC imm) →
    exec i s = .next t → t.mem = s.mem ∧ exec i (setMem m s) = .next (setMem m t)

/-- R20, R22, R24. The twelve registers are separate: a register reads as what was last written to it, and a write changes
nothing else. -/
def Obligations.RegistersKeepWhatIsWrittenAndDoNotAlias : Prop :=
  (∀ r v s, byteReg r (setByteReg r v s) = v ∧ SameBut [r] [] [] s (setByteReg r v s)) ∧
  (∀ r v s, wordReg r (setWordReg r v s) = v ∧ SameBut [] [r] [] s (setWordReg r v s))

/-! ### Memory (20_memory.md) -/

/-- R52, R54, R57. A read or a write succeeds exactly below `N`; a write changes exactly the byte at its address, and not
the length of memory. -/
def Obligations.AMemoryWriteChangesExactlyOneByte : Prop :=
  ∀ (m : Memory) (addr : Nat) (v : Byte),
    (m.size ≤ addr → memRead m addr = none ∧ memWrite m addr v = none) ∧
    (addr < m.size → (∃ w, memRead m addr = some w) ∧
      ∃ n, memWrite m addr v = some n ∧ n.size = m.size ∧ memRead n addr = some v ∧
        ∀ other, other ≠ addr → memRead n other = memRead m other)

/-- The canonical form makes an image its own meaning: two images in it that read the same at every address are equal. The
form is the model's (log 19). -/
def Obligations.WellFormedImagesThatReadTheSameAreEqual : Prop :=
  ∀ m n : Memory, m.wf → n.wf → ReadsSame m n → m = n

/-- R27, R28, R54. `ptr_c` is the byte at `ptr + c` modulo 2^32: the sum wraps before the bounds check, a read gives the
byte there and a write replaces it. -/
def Obligations.PtrCIsTheByteAtPtrPlusCModulo32Bits : Prop :=
  ∀ s, (indirectAddress s).toNat = (s.ptr.toNat + s.c.toNat) % 2 ^ 32 ∧
    readByteId .ptrC s = memRead s.mem ((s.ptr.toNat + s.c.toNat) % 2 ^ 32) ∧
    (∀ v t, writeByteId .ptrC v s = some t →
      memRead t.mem ((s.ptr.toNat + s.c.toNat) % 2 ^ 32) = some v ∧
      SameBut [] [] [(s.ptr.toNat + s.c.toNat) % 2 ^ 32] s t)

/-- R61, R233. A byte written to memory is the one the next fetch of its address sees, and the bytes after it are as
before. -/
def Obligations.TheNextFetchSeesAWrittenByte : Prop :=
  ∀ (m n : Memory) (addr : Nat) (v : Byte) (count : Nat), memWrite m addr v = some n →
    fetchBytes n addr (count + 1) = v :: fetchBytes m (addr + 1) count

/-! ### Decoding and encoding (30_encoding.md) -/

/-- A few words written out from the encodings of the spec, one a format, at this hardware's parameters (the nine fixed
codes are PRESUMED, log 1; that they are tested first and the register ids are the spec's decisions D2 and D4, log 3 and
log 4). -/
def Obligations.WordsOfTheSpecDecodeToTheirInstructions : Prop :=
  decodeBytes Config.hardware [0xC2#8] = .ok .add ∧
  decodeBytes Config.hardware [0xE1#8, 0x05#8] = .ok (.aptr 0x05#8) ∧
  decodeBytes Config.hardware [0x21#8, 0x78#8, 0x56#8, 0x34#8, 0x12#8] = .ok (.jez 0x12345678#32) ∧
  decodeBytes Config.hardware [0x4F#8] = .ok (.mv (.reg .a) .ptrC) ∧
  decodeBytes Config.hardware [0x78#8, 0xAA#8] = .ok (.mvi .ptrC 0xAA#8) ∧
  decodeBytes Config.hardware [0x8E#8] = .ok (.mv32 .la .pc) ∧
  decodeBytes Config.hardware [0xA8#8, 0x64#8, 0x00#8, 0x00#8, 0x00#8] = .ok (.mvi32 .ptr 0x64#32) ∧
  decodeBytes Config.hardware [0x02#8] = .ok .out

/-- R86. Decoding the canonical bytes of a well-formed instruction gives it back, whatever follows them, for every choice
of nine distinct fixed codes and in both modes; and the bytes are as many as its width. That the fixed codes come first and
which id names which register are the spec's decisions D2 and D4 (log 3, log 4). -/
def Obligations.DecodingAnEncodedInstructionGivesItBack : Prop :=
  ∀ (cfg : Config) (i : Instr) (rest : List Byte), cfg.wellFormed = true → i.wellFormed cfg = true →
    decodeBytes cfg (encode cfg i ++ rest) = .ok i ∧ (encode cfg i).length = i.width

/-- R82, R85, R86. The other direction: the bytes that decode to an instruction begin with its canonical encoding, or, in
`literal` mode, with that encoding but for bit 7 of a first byte `0b11xxxxxx` that is no fixed code. The order of tests, the
two modes and the register ids are the spec's decisions D2, D3 and D4 (log 3, log 2, log 4). -/
def Obligations.DecodedBytesAreTheEncodingOrItsHighPairAlias : Prop :=
  ∀ (cfg : Config) (op : Byte) (rest : List Byte) (i : Instr), decodeBytes cfg (op :: rest) = .ok i →
    i.width ≤ rest.length + 1 ∧ rest.take (i.width - 1) = i.immediateBytes ∧
    (op = i.opcodeByte cfg ∨
      (cfg.highPairMode = .literal ∧ op ∉ cfg.fixedCodes ∧ op.toNat = (i.opcodeByte cfg).toNat + 128 ∧ 192 ≤ op.toNat))

/-- R55, R74. The immediate of JEZ, JNZ and MVI32 is little-endian, unsigned and neither scaled nor extended: the branches
use it as the absolute target, MVI32 writes it unchanged. -/
def Obligations.FourByteImmediatesAreLittleEndian : Prop :=
  ∀ (cfg : Config) (b0 b1 b2 b3 : Byte) (rest : List Byte), cfg.wellFormed = true → ∃ v : Word,
    v.toNat = b0.toNat + 256 * b1.toNat + 65536 * b2.toNat + 16777216 * b3.toNat ∧
    decodeBytes cfg (cfg.opcJez :: b0 :: b1 :: b2 :: b3 :: rest) = .ok (.jez v) ∧
    decodeBytes cfg (cfg.opcJnz :: b0 :: b1 :: b2 :: b3 :: rest) = .ok (.jnz v) ∧
    (∀ op dst, decodeOpcode cfg op = .ok (.mvi32 dst) →
      decodeBytes cfg (op :: b0 :: b1 :: b2 :: b3 :: rest) = .ok (.mvi32 dst v)) ∧
    (∀ s, s.f = 0x00#8 → exec (.jez v) s = .next { s with pc := v }) ∧
    (∀ s, s.f ≠ 0x00#8 → exec (.jnz v) s = .next { s with pc := v }) ∧
    (∀ dst s, exec (.mvi32 dst v) s = .next (setWordReg dst v s))

/-- R70, R83. The width is 1, 2 or 5 and the opcode byte alone settles it. -/
def Obligations.TheOpcodeByteSettlesTheWidth : Prop :=
  ∀ cfg op rest other i j, decodeBytes cfg (op :: rest) = .ok i → decodeBytes cfg (op :: other) = .ok j →
    i.width = j.width ∧ (i.width = 1 ∨ i.width = 2 ∨ i.width = 5)

/-- R78. A register id out of range is a DecodeError, in each case of the rule, for an opcode byte that is no fixed code:
byte `DDD = 0` in families 1 and 2, word `DDD = 0` or `7` in families 3 and 4, word `SSS = 7` in family 4. The missing
immediate of such an instruction does not matter (R207). That the fixed codes come first, and the ids before the
immediates, are the spec's decisions D2 and D7 (log 3, log 6); the record's content is its decision D8 (R203, log 7), and
that it stands in a next state the model's choice (log 8). -/
def Obligations.InvalidRegisterIdsTakeDecodeError : Prop :=
  ∀ (cfg : Config) (s : State) (op : Byte), s.status = .running → memRead s.mem s.pc.toNat = some op →
    op ∉ cfg.fixedCodes →
    (op.getLsbD 6 = true ∧ op.toNat / 8 % 8 = 0) ∨
    (op.getLsbD 7 = true ∧ op.getLsbD 6 = false ∧ (op.toNat / 8 % 8 = 0 ∨ op.toNat / 8 % 8 = 7 ∨ op.toNat % 8 = 7)) →
    stepWith cfg s = .next { s with status := .faulted (.decodeError s.pc op) }

/-- R79, R82. A byte that matches no fixed code and no family is a DecodeError: one with bits 7 and 6 clear, and in
`strict` mode one with both set. That the fixed codes come first and that there are two modes are the spec's decisions D2
and D3 (log 3, log 2); the record's content is its decision D8 (R203, log 7), and that it stands in a next state the model's
choice (log 8). -/
def Obligations.BytesThatMatchNothingTakeDecodeError : Prop :=
  ∀ (cfg : Config) (s : State) (op : Byte), s.status = .running → memRead s.mem s.pc.toNat = some op →
    op ∉ cfg.fixedCodes → op.toNat < 64 ∨ (cfg.highPairMode = .strict ∧ 192 ≤ op.toNat) →
    stepWith cfg s = .next { s with status := .faulted (.decodeError s.pc op) }

/-- R82. In `literal` mode a byte `0b11xxxxxx` that is no fixed code decodes as the byte with bit 7 clear does, where that
one is no fixed code. The choice of `literal` for this hardware is the spec's decision D3 (log 2). -/
def Obligations.LiteralModeIgnoresBitSevenOfByteMoves : Prop :=
  ∀ (cfg : Config) (op : Byte) (rest : List Byte) (i : Instr), cfg.highPairMode = .literal → 192 ≤ op.toNat →
    op ∉ cfg.fixedCodes → op - 128#8 ∉ cfg.fixedCodes →
    (decodeBytes cfg (op :: rest) = .ok i ↔ decodeBytes cfg ((op - 128#8) :: rest) = .ok i)

/-- R82. A step that fetches no byte `0b11xxxxxx`, or one that is a fixed code, is the same in both modes. The modes and the
order of tests are the spec's decisions D3 and D2 (log 2, log 3). -/
def Obligations.HighPairModeMattersOnlyForHighPairBytes : Prop :=
  ∀ (cfg : Config) (s : State) (op : Byte), memRead s.mem s.pc.toNat = some op → op.toNat < 192 ∨ op ∈ cfg.fixedCodes →
    stepWith { cfg with highPairMode := .literal } s = stepWith { cfg with highPairMode := .strict } s

/-- R201. Fetching at or past `N` is an AddressError with the out-of-range `pc`; so is an immediate byte at or past `N`,
with the `pc` of the opcode byte, where the opcode byte itself decodes to an instruction that the missing bytes would
complete. These are the spec's decision D6 (log 5); the record's content is its decision D8 (R203, log 7), and that it
stands in a next state the model's choice (log 8). -/
def Obligations.InstructionBytesOutOfRangeTakeAddressError : Prop :=
  ∀ (cfg : Config) (s : State), s.status = .running →
    (s.mem.size ≤ s.pc.toNat → stepWith cfg s = .next { s with status := .faulted (.addressError s.pc) }) ∧
    (∀ op rest i, memRead s.mem s.pc.toNat = some op → decodeBytes cfg (op :: rest) = .ok i →
      s.mem.size < s.pc.toNat + i.width →
      stepWith cfg s = .next { s with status := .faulted (.addressError s.pc) })

/-! ### The step (30_encoding.md R81, 60_exceptions.md) -/

/-- R81. Where the bytes at `pc` decode to an instruction, one step of a Running core moves `pc` past its width and runs
exactly that instruction on the result; `step` is this with the hardware's parameters. That the advance wraps is the spec's
decision D11 (log 13). -/
def Obligations.AStepRunsTheDecodedInstruction : Prop :=
  (∀ cfg s bytes i, s.status = .running → HoldsAt s.mem s.pc.toNat bytes → decodeBytes cfg bytes = .ok i →
    stepWith cfg s = exec i { s with pc := s.pc + BitVec.ofNat 32 i.width }) ∧
  (∀ s, step s = stepWith Config.hardware s)

/-- R31, R81. A step is defined exactly from Running, and from there it always gives a next state: no instruction is
refused, and both errors are taken (the model's form, log 8). From Halted and from Faulted the model's step stops: that none
is defined is the spec's decision D17, the fault the model's way to say so (log 9, DEDUCED). -/
def Obligations.StepsAreDefinedExactlyFromRunning : Prop :=
  ∀ cfg s, (s.status = .running → ∃ t, stepWith cfg s = .next t) ∧
    (s.status = .halted → stepWith cfg s = .fault .stepAfterHalt) ∧
    (∀ record, s.status = .faulted record → stepWith cfg s = .fault (.stepAfterError record))

/-- R203, R205. A step that ends in an error names the address of its own opcode byte and changes no register but `pc`, no
byte of memory and no output: where decoding failed `pc` stays, where the instruction failed `pc` is the advanced one. The
model holds this state, and no step reads it (log 8, DESIGN CHOICE). The record is the spec's decision D8 (log 7). -/
def Obligations.AnErrorChangesNothingButThePcAndTheStatus : Prop :=
  ∀ cfg s t record, s.status = .running → stepWith cfg s = .next t → t.status = .faulted record →
    errorPc0 record = s.pc ∧
    ((∃ r, fetchInstr cfg s = .error r) ∧ t = { s with status := .faulted record } ∨
     (∃ i, fetchInstr cfg s = .ok i ∧ record = .addressError s.pc ∧
       t = { s with pc := s.pc + BitVec.ofNat 32 i.width, status := .faulted record }))

/-- Every step keeps the memory image well formed: canonical, all of it below `N`, and `N` at most 2^32. The canonical form
is the model's own (log 19, DESIGN CHOICE) and no rule's; the bound of `N` is the spec's decision D5 (R51, log 17). What the
spec gives it rests on: an image of fixed length (R50), of which a write changes one byte (R52). -/
def Obligations.EveryStepKeepsTheImageWellFormed : Prop :=
  ∀ cfg s t, ImageInv s → stepWith cfg s = .next t → ImageInv t

/-- R50. The length of the memory image never changes, in any state. -/
def Obligations.EveryStepKeepsTheLengthOfMemory : Prop :=
  ∀ cfg s t, stepWith cfg s = .next t → t.mem.size = s.mem.size

/-- R32. The output sequence is append-only: a step leaves it, or, where the instruction is OUT, adds the byte `a` at its
end and nothing else. That it has no limit is the spec's decision D15 (log 15). -/
def Obligations.EveryStepOnlyAppendsToTheOutput : Prop :=
  ∀ cfg s t, stepWith cfg s = .next t →
    (fetchInstr cfg s = .ok .out → t.out = s.out ++ [s.a]) ∧ (fetchInstr cfg s ≠ .ok .out → t.out = s.out)

/-! ### Reset and runs (70_reset_and_hazards.md, 00_scope.md) -/

/-- R34. The reset state: every register zero, `pc` at 0, output empty, status Running (the spec's decision D17, log 9),
memory well formed. That its image is the empty one is the model's choice (log 18), and so is the canonical form (log 19). -/
def Obligations.ResetLeavesEveryRegisterZero : Prop :=
  (∀ r, byteReg r State.reset = 0x00#8) ∧ (∀ r, wordReg r State.reset = 0x00000000#32) ∧
  State.reset.out = [] ∧ State.reset.status = .running ∧ ImageInv State.reset ∧ construct [] = .next State.reset

/-- R10, R34, R230. Construction from an image of at most 2^32 bytes gives the reset state with exactly that image as
memory; a longer image is refused (D5, log 17). That the memory built is in canonical form is the model's own clause (log 19,
DESIGN CHOICE), and the status Running the spec's decision D17 (log 9). -/
def Obligations.ConstructionLoadsExactlyTheImage : Prop :=
  ∀ image : List Byte,
    (image.length ≤ 2 ^ 32 → ∃ m : Memory, construct image = .next { State.reset with mem := m } ∧ m.wf ∧
      m.size = image.length ∧ ∀ addr, memRead m addr = image[addr]?) ∧
    (2 ^ 32 < image.length → construct image = .refused (.imageTooLong image.length))

/-- R15. More fuel does not change the result of a run that ended. FUEL is the spec's parameter D14 (log 21). -/
def Obligations.MoreFuelKeepsAFinishedRun : Prop :=
  ∀ cfg image fuel more r, run cfg image fuel = .next r → r ≠ .outOfFuel → run cfg image (fuel + more) = .next r

/-- R208, R216, R235. A run of an image of at most 2^32 bytes, without a step bound, either never ends or ends in exactly
one result, never both; it is never refused. The form of the unbounded run is the model's (log 21, DESIGN CHOICE; spec D14),
the bound of the image the spec's decision D5 (log 17). -/
def Obligations.ARunEndsInExactlyOneResultOrNever : Prop :=
  ∀ cfg (image : List Byte), image.length ≤ 2 ^ 32 →
    (NeverEnds cfg image ∧ ∀ r, ¬ RunEndsIn cfg image r) ∨
    (¬ NeverEnds cfg image ∧ ∃ r, RunEndsIn cfg image r ∧ ∀ q, RunEndsIn cfg image q → q = r)

/-- R235. A safe run, one that ends in Halted, does not end in an error and does end. `RunEndsIn` and `NeverEnds`, in which
this is stated, are the model's form of the run without FUEL (log 21, DESIGN CHOICE; spec D14). For an image of at most 2^32
bytes it follows from `ARunEndsInExactlyOneResultOrNever`. -/
def Obligations.ASafeRunDoesNotEndInAnError : Prop :=
  ∀ cfg image, SafeRun cfg image → (∀ record, ¬ RunEndsIn cfg image (.error record)) ∧ ¬ NeverEnds cfg image

/-- R10, R81. A word of the opcode table placed where the next fetch reads is what the next step runs: with five bytes of
address space left at `pc`, the step is `exec` of the instruction that the word decodes to. How a program comes to stand in
memory is the model's choice (log 18). -/
def Obligations.APlacedWordIsWhatTheNextStepRuns : Prop :=
  ∀ (s : State) (nbits w : Nat) (i : Instr), s.pc.toNat + 5 ≤ 2 ^ 32 → decodeTableWord nbits w = some i →
    step (s.withFetchWord nbits w) =
      exec i { s.withFetchWord nbits w with pc := s.pc + BitVec.ofNat 32 i.width }
end

