-- ==== Sys2Proof/Laws/Decode.lean ====
section
/-!
SUPPORT. What decoding and encoding can do: register ids, immediates, one inversion lemma for the opcode byte and one for
the bytes after it.
-/

namespace Sys2Proof

/-! ### Register ids -/

@[simp] theorem byteIdOf_byteIdCode (x : ByteId) : byteIdOf (byteIdCode x) = some x := by
  rcases x with r | _
  · cases r <;> rfl
  · rfl

@[simp] theorem wordRegOf_wordRegCode (r : WordReg) : wordRegOf (wordRegCode r) = some r := by
  cases r <;> rfl

/-- A byte id is the code of the operand it selects; only id 0 selects none. -/
theorem byteIdCode_of_byteIdOf {id : BitVec 3} {x : ByteId} (h : byteIdOf id = some x) : byteIdCode x = id := by
  have : ∀ id : BitVec 3, (byteIdOf id).map byteIdCode = none ∨ (byteIdOf id).map byteIdCode = some id := by decide
  rcases this id with h' | h' <;> simp_all

theorem wordRegCode_of_wordRegOf {id : BitVec 3} {r : WordReg} (h : wordRegOf id = some r) : wordRegCode r = id := by
  have : ∀ id : BitVec 3, (wordRegOf id).map wordRegCode = none ∨ (wordRegOf id).map wordRegCode = some id := by decide
  rcases this id with h' | h' <;> simp_all

/-! ### Immediates -/

/-- `le32` is the weighted sum of its bytes (R8). -/
theorem toNat_le32 (b0 b1 b2 b3 : Byte) :
    (le32 b0 b1 b2 b3).toNat = b0.toNat + 256 * b1.toNat + 65536 * b2.toNat + 16777216 * b3.toNat := by
  have h0 := b0.isLt
  have h1 := b1.isLt
  have h2 := b2.isLt
  have h3 := b3.isLt
  simp only [le32, BitVec.toNat_ofNat]
  omega

/-- The bytes of a word make the word. -/
theorem le32_wordByte (v : Word) : le32 (wordByte v 0) (wordByte v 1) (wordByte v 2) (wordByte v 3) = v := by
  apply BitVec.eq_of_toNat_eq
  have := v.isLt
  rw [toNat_le32]
  simp only [wordByte, BitVec.toNat_ofNat]
  omega

/-- Four bytes are the bytes of the word they make. -/
theorem wordBytes_le32 (b0 b1 b2 b3 : Byte) : wordBytes (le32 b0 b1 b2 b3) = [b0, b1, b2, b3] := by
  have h0 := b0.isLt
  have h1 := b1.isLt
  have h2 := b2.isLt
  have h3 := b3.isLt
  simp only [wordBytes, wordByte, toNat_le32, List.cons.injEq, and_true]
  refine ⟨?_, ?_, ?_, ?_⟩ <;> apply BitVec.eq_of_toNat_eq <;> simp only [BitVec.toNat_ofNat] <;> omega

/-! ### The bytes after the opcode -/

/-- Everything that completing an opcode can do: the instruction's immediate is the bytes it takes, and there are as many
of them as its width asks for. -/
theorem complete_eq_ok {o : Opcode} {rest : List Byte} {i : Instr} (h : o.complete rest = .ok i) :
    i.width ≤ rest.length + 1 ∧ rest.take (i.width - 1) = i.immediateBytes := by
  cases o <;> simp only [Opcode.complete, Except.ok.injEq] at h
  case aptr | mvi =>
    rcases rest with _ | ⟨b, rest⟩ <;> simp only [withImm8, Except.ok.injEq, reduceCtorEq] at h
    subst h
    simp [Instr.width, Instr.immediateBytes]
  case jez | jnz | mvi32 =>
    rcases rest with _ | ⟨b0, _ | ⟨b1, _ | ⟨b2, _ | ⟨b3, rest⟩⟩⟩⟩ <;>
      simp only [withImm32, Except.ok.injEq, reduceCtorEq] at h
    subst h
    simp [Instr.width, Instr.immediateBytes, wordBytes_le32]
  all_goals
    subst h
    simp [Instr.width, Instr.immediateBytes]

/-- More bytes do not change a completed instruction. -/
theorem complete_append {o : Opcode} {rest : List Byte} {i : Instr} (h : o.complete rest = .ok i) (more : List Byte) :
    o.complete (rest ++ more) = .ok i := by
  cases o <;> simp only [Opcode.complete] at h ⊢
  case aptr | mvi =>
    rcases rest with _ | ⟨b, rest⟩ <;> simp_all [withImm8]
  case jez | jnz | mvi32 =>
    rcases rest with _ | ⟨b0, _ | ⟨b1, _ | ⟨b2, _ | ⟨b3, rest⟩⟩⟩⟩ <;> simp_all [withImm32]
  all_goals exact h

/-- The first four bytes after the opcode are enough. -/
theorem complete_take (o : Opcode) (rest : List Byte) {n : Nat} (hn : 4 ≤ n) :
    o.complete (rest.take n) = o.complete rest := by
  obtain ⟨n, rfl⟩ := Nat.exists_eq_add_of_le' hn
  cases o <;> simp only [Opcode.complete]
  case aptr | mvi => rcases rest with _ | ⟨b, rest⟩ <;> rfl
  case jez | jnz | mvi32 => rcases rest with _ | ⟨b0, _ | ⟨b1, _ | ⟨b2, _ | ⟨b3, rest⟩⟩⟩⟩ <;> rfl

/-- Completing the opcode rejects only a truncated instruction. -/
theorem complete_eq_error {o : Opcode} {rest : List Byte} {r : DecodeReject} (h : o.complete rest = .error r) :
    r = .truncated := by
  cases o <;> simp only [Opcode.complete, reduceCtorEq] at h
  case aptr | mvi =>
    rcases rest with _ | ⟨b, rest⟩ <;> simp_all [withImm8]
  case jez | jnz | mvi32 =>
    rcases rest with _ | ⟨b0, _ | ⟨b1, _ | ⟨b2, _ | ⟨b3, rest⟩⟩⟩⟩ <;> simp_all [withImm32]

/-- The width that an opcode settles. -/
theorem width_eq_of_complete {o : Opcode} {rest other : List Byte} {i j : Instr} (hi : o.complete rest = .ok i)
    (hj : o.complete other = .ok j) : i.width = j.width := by
  cases o <;> simp only [Opcode.complete, Except.ok.injEq] at hi hj
  case aptr | mvi =>
    rcases rest with _ | ⟨b, rest⟩ <;> rcases other with _ | ⟨c, other⟩ <;>
      simp only [withImm8, Except.ok.injEq, reduceCtorEq] at hi hj
    rw [← hi, ← hj]
    rfl
  case jez | jnz | mvi32 =>
    rcases rest with _ | ⟨b0, _ | ⟨b1, _ | ⟨b2, _ | ⟨b3, rest⟩⟩⟩⟩ <;>
      rcases other with _ | ⟨c0, _ | ⟨c1, _ | ⟨c2, _ | ⟨c3, other⟩⟩⟩⟩ <;>
      simp only [withImm32, Except.ok.injEq, reduceCtorEq] at hi hj
    rw [← hi, ← hj]
    rfl
  all_goals rw [← hi, ← hj]

/-! ### Decoding -/

theorem decodeBytes_cons (cfg : Config) (op : Byte) (rest : List Byte) :
    decodeBytes cfg (op :: rest) =
      match decodeOpcode cfg op with
      | .error r => .error r
      | .ok o => o.complete rest := rfl

/-- Everything that decoding to an instruction can be. -/
theorem decodeBytes_eq_ok {cfg : Config} {bytes : List Byte} {i : Instr} (h : decodeBytes cfg bytes = .ok i) :
    ∃ op rest o, bytes = op :: rest ∧ decodeOpcode cfg op = .ok o ∧ o.complete rest = .ok i := by
  rcases bytes with _ | ⟨op, rest⟩
  · exact absurd h (by simp [decodeBytes])
  · rw [decodeBytes_cons] at h
    split at h
    · exact absurd h (by simp)
    · exact ⟨op, rest, _, rfl, by assumption, h⟩

theorem decodeBytes_of_opcode {cfg : Config} {op : Byte} {o : Opcode} (h : decodeOpcode cfg op = .ok o)
    (rest : List Byte) : decodeBytes cfg (op :: rest) = o.complete rest := by
  rw [decodeBytes_cons, h]

theorem decodeBytes_append {cfg : Config} {bytes : List Byte} {i : Instr} (h : decodeBytes cfg bytes = .ok i)
    (more : List Byte) : decodeBytes cfg (bytes ++ more) = .ok i := by
  obtain ⟨op, rest, o, rfl, ho, hc⟩ := decodeBytes_eq_ok h
  rw [List.cons_append, decodeBytes_of_opcode ho]
  exact complete_append hc more

/-- The first `maxWidth` bytes are enough. -/
theorem decodeBytes_take (cfg : Config) (bytes : List Byte) {n : Nat} (hn : maxWidth ≤ n) :
    decodeBytes cfg (bytes.take n) = decodeBytes cfg bytes := by
  obtain ⟨n, rfl⟩ := Nat.exists_eq_add_of_le' hn
  rcases bytes with _ | ⟨op, rest⟩
  · rfl
  · show decodeBytes cfg (op :: rest.take (n + 4)) = _
    rw [decodeBytes_cons, decodeBytes_cons]
    split
    · rfl
    · exact complete_take _ _ (by omega)

/-- A fixed code decodes as the first of the nine that it equals (R77, R80). -/
theorem decodeOpcode_of_not_fixed {cfg : Config} {op : Byte} (h : op ∉ cfg.fixedCodes) :
    decodeOpcode cfg op =
      if cfg.highPairMode = .strict ∧ op.extractLsb' 6 2 = 0b11#2 then .error (.noMatch op) else decodeFamily op := by
  simp only [Config.fixedCodes, List.mem_cons, List.not_mem_nil, or_false, not_or] at h
  obtain ⟨h1, h2, h3, h4, h5, h6, h7, h8, h9⟩ := h
  simp only [decodeOpcode, if_neg h1, if_neg h2, if_neg h3, if_neg h4, if_neg h5, if_neg h6, if_neg h7, if_neg h8,
    if_neg h9]

/-- With nine distinct codes each fixed code decodes as its own instruction. -/
theorem decodeOpcode_fixed {cfg : Config} (h : cfg.wellFormed = true) :
    decodeOpcode cfg cfg.opcAdd = .ok .add ∧ decodeOpcode cfg cfg.opcSub = .ok .sub ∧
    decodeOpcode cfg cfg.opcXor = .ok .xor ∧ decodeOpcode cfg cfg.opcCmp = .ok .cmp ∧
    decodeOpcode cfg cfg.opcOut = .ok .out ∧ decodeOpcode cfg cfg.opcHalt = .ok .halt ∧
    decodeOpcode cfg cfg.opcAptr = .ok .aptr ∧ decodeOpcode cfg cfg.opcJez = .ok .jez ∧
    decodeOpcode cfg cfg.opcJnz = .ok .jnz := by
  simp only [Config.wellFormed, Config.fixedCodes, decide_eq_true_eq, List.nodup_cons, List.mem_cons, List.not_mem_nil,
    or_false, not_or] at h
  simp only [decodeOpcode]
  refine ⟨?_, ?_, ?_, ?_, ?_, ?_, ?_, ?_, ?_⟩ <;> simp_all [eq_comm]

end Sys2Proof
end

