-- ==== Sys2Proof/Laws/Memory.lean ====
section
/-!
SUPPORT. The memory operations: what each one does to the byte at an address, and that each one keeps the canonical form.
-/

namespace Sys2Proof.Machine

/-! ### Cells -/

theorem lookupCell_eraseCell_self (addr : Nat) (cells : List Host.Cell) :
    lookupCell (eraseCell addr cells) addr = unlistedByte := by
  induction cells with
  | nil => rfl
  | cons x rest ih =>
    unfold eraseCell
    split
    · exact ih
    · rename_i h
      simp only [lookupCell, if_neg h, ih]

theorem lookupCell_eraseCell_of_ne {addr other : Nat} (h : other ≠ addr) (cells : List Host.Cell) :
    lookupCell (eraseCell addr cells) other = lookupCell cells other := by
  induction cells with
  | nil => rfl
  | cons x rest ih =>
    unfold eraseCell
    split
    · rename_i hx
      rw [ih, lookupCell, if_neg (by omega)]
    · simp only [lookupCell, ih]

theorem lookupCell_insertCell_of_ne {addr other : Nat} (h : other ≠ addr) (v : Byte) (cells : List Host.Cell) :
    lookupCell (insertCell addr v cells) other = lookupCell cells other := by
  induction cells with
  | nil => simp [insertCell, lookupCell, Ne.symm h]
  | cons x rest ih =>
    unfold insertCell
    split
    · rw [lookupCell, if_neg (Ne.symm h)]
    · simp only [lookupCell, ih]

theorem lookupCell_insertCell_self {addr : Nat} (v : Byte) {cells : List Host.Cell} (h : ∀ x ∈ cells, x.1 ≠ addr) :
    lookupCell (insertCell addr v cells) addr = v := by
  induction cells with
  | nil => simp [insertCell, lookupCell]
  | cons x rest ih =>
    unfold insertCell
    split
    · simp [lookupCell]
    · rw [lookupCell, if_neg (h x (by simp)), ih fun y hy => h y (by simp [hy])]

theorem mem_eraseCell {addr : Nat} {x : Host.Cell} {cells : List Host.Cell} :
    x ∈ eraseCell addr cells ↔ x ∈ cells ∧ x.1 ≠ addr := by
  induction cells with
  | nil => simp [eraseCell]
  | cons y rest ih =>
    unfold eraseCell
    split
    · rw [ih, List.mem_cons]
      constructor
      · rintro ⟨h, hx⟩
        exact ⟨.inr h, hx⟩
      · rintro ⟨rfl | h, hx⟩
        · contradiction
        · exact ⟨h, hx⟩
    · rw [List.mem_cons, List.mem_cons, ih]
      constructor
      · rintro (rfl | ⟨h, hx⟩)
        · exact ⟨.inl rfl, by assumption⟩
        · exact ⟨.inr h, hx⟩
      · rintro ⟨rfl | h, hx⟩
        · exact .inl rfl
        · exact .inr ⟨h, hx⟩

theorem mem_insertCell {addr : Nat} {v : Byte} {x : Host.Cell} {cells : List Host.Cell} :
    x ∈ insertCell addr v cells ↔ x = (addr, v) ∨ x ∈ cells := by
  induction cells with
  | nil => simp [insertCell]
  | cons y rest ih =>
    unfold insertCell
    split
    · simp
    · rw [List.mem_cons, ih, List.mem_cons]
      exact or_left_comm

/-- A byte written is the byte read back. -/
theorem lookupCell_storeCell_self (addr : Nat) (v : Byte) (cells : List Host.Cell) :
    lookupCell (storeCell addr v cells) addr = v := by
  unfold storeCell
  split
  · rename_i h
    rw [lookupCell_eraseCell_self, h]
  · exact lookupCell_insertCell_self v fun x hx => (mem_eraseCell.mp hx).2

/-- A byte written leaves every other byte. -/
theorem lookupCell_storeCell_of_ne {addr other : Nat} (h : other ≠ addr) (v : Byte) (cells : List Host.Cell) :
    lookupCell (storeCell addr v cells) other = lookupCell cells other := by
  unfold storeCell
  split
  · exact lookupCell_eraseCell_of_ne h cells
  · rw [lookupCell_insertCell_of_ne h, lookupCell_eraseCell_of_ne h]

/-! ### The canonical form -/

theorem pairwise_eraseCell (addr : Nat) {cells : List Host.Cell} (h : cells.Pairwise fun x y => x.1 < y.1) :
    (eraseCell addr cells).Pairwise fun x y => x.1 < y.1 := by
  induction h with
  | nil => exact .nil
  | cons hx _ ih =>
    unfold eraseCell
    split
    · exact ih
    · exact .cons (fun y hy => hx y (mem_eraseCell.mp hy).1) ih

theorem pairwise_insertCell {addr : Nat} (v : Byte) {cells : List Host.Cell}
    (h : cells.Pairwise fun x y => x.1 < y.1) (hne : ∀ x ∈ cells, x.1 ≠ addr) :
    (insertCell addr v cells).Pairwise fun x y => x.1 < y.1 := by
  induction h with
  | nil => exact List.pairwise_singleton _ _
  | @cons x rest hx hrest ih =>
    unfold insertCell
    split
    · rename_i hlt
      refine .cons (fun y hy => ?_) (.cons hx hrest)
      rcases List.mem_cons.mp hy with rfl | hy
      · exact hlt
      · exact hlt.trans (hx y hy)
    · rename_i hle
      refine .cons (fun y hy => ?_) (ih fun y hy => hne y (by simp [hy]))
      rcases mem_insertCell.mp hy with rfl | hy
      · exact lt_of_le_of_ne (not_lt.mp hle) (hne x (by simp))
      · exact hx y hy

/-- Writing a byte below the new length keeps the canonical form. -/
theorem wf_storeCell {m : Memory} (h : m.wf) {addr size : Nat} (v : Byte) (hsize : m.size ≤ size) (haddr : addr < size)
    (hmax : size ≤ 2 ^ 32) : Memory.wf { size := size, cells := storeCell addr v m.cells } := by
  obtain ⟨hpair, hcells, -⟩ := h
  have herase : ∀ x ∈ eraseCell addr m.cells, x.2 ≠ unlistedByte ∧ x.1 < size := fun x hx =>
    ⟨(hcells x (mem_eraseCell.mp hx).1).1, (hcells x (mem_eraseCell.mp hx).1).2.trans_le hsize⟩
  show (storeCell addr v m.cells).Pairwise _ ∧ (∀ x ∈ storeCell addr v m.cells, _) ∧ size ≤ 2 ^ 32
  unfold storeCell
  split
  · exact ⟨pairwise_eraseCell addr hpair, herase, hmax⟩
  · rename_i hv
    refine ⟨pairwise_insertCell v (pairwise_eraseCell addr hpair) fun x hx => (mem_eraseCell.mp hx).2, ?_, hmax⟩
    intro x hx
    rcases mem_insertCell.mp hx with rfl | hx
    · exact ⟨hv, haddr⟩
    · exact herase x hx

/-- Everything a write can do: below `N` it replaces the cells, elsewhere it fails. -/
theorem memWrite_eq_some {m n : Memory} {addr : Nat} {v : Byte} :
    memWrite m addr v = some n ↔ addr < m.size ∧ n = { m with cells := storeCell addr v m.cells } := by
  unfold memWrite
  split <;> simp_all [eq_comm]

/-- A read succeeds exactly below `N`. -/
theorem memRead_eq_some {m : Memory} {addr : Nat} {v : Byte} :
    memRead m addr = some v ↔ addr < m.size ∧ lookupCell m.cells addr = v := by
  unfold memRead
  split <;> simp_all

theorem memRead_eq_none {m : Memory} {addr : Nat} : memRead m addr = none ↔ m.size ≤ addr := by
  unfold memRead
  split <;> simp_all

/-- A write keeps the canonical form. -/
theorem memWrite_wf {m n : Memory} {addr : Nat} {v : Byte} (h : m.wf) (hw : memWrite m addr v = some n) : n.wf := by
  obtain ⟨haddr, rfl⟩ := memWrite_eq_some.mp hw
  exact wf_storeCell h v le_rfl haddr h.2.2

/-- Placing bytes keeps the canonical form. -/
theorem placeBytes_wf {m : Memory} (h : m.wf) (addr : Nat) (bytes : List Byte) : (placeBytes m addr bytes).wf := by
  induction bytes generalizing m addr with
  | nil => exact h
  | cons v rest ih =>
    unfold placeBytes
    split
    · rename_i hlt
      exact ih (wf_storeCell h v (le_max_left _ _) (lt_of_lt_of_le (Nat.lt_succ_self _) (le_max_right _ _))
        (max_le h.2.2 hlt)) _
    · exact h

/-- The reset state's memory is in canonical form. -/
theorem reset_mem_wf : State.reset.mem.wf := ⟨.nil, by simp [State.reset], by simp [State.reset]⟩

/-! ### The cells of an image -/

theorem mem_imageCells {addr : Nat} {image : List Byte} {x : Host.Cell} (h : x ∈ imageCells addr image) :
    addr ≤ x.1 ∧ x.1 < addr + image.length ∧ x.2 ≠ unlistedByte := by
  induction image generalizing addr with
  | nil => simp [imageCells] at h
  | cons v rest ih =>
    unfold imageCells at h
    split at h
    · have := ih h
      simp only [List.length_cons]
      exact ⟨by omega, by omega, this.2.2⟩
    · rename_i hv
      rcases List.mem_cons.mp h with rfl | h
      · exact ⟨le_rfl, by simp, hv⟩
      · have := ih h
        simp only [List.length_cons]
        exact ⟨by omega, by omega, this.2.2⟩

theorem pairwise_imageCells (addr : Nat) (image : List Byte) :
    (imageCells addr image).Pairwise fun x y => x.1 < y.1 := by
  induction image generalizing addr with
  | nil => exact .nil
  | cons v rest ih =>
    unfold imageCells
    split
    · exact ih _
    · exact .cons (fun x hx => (mem_imageCells hx).1) (ih _)

theorem lookupCell_imageCells_below {addr other : Nat} (h : other < addr) (image : List Byte) :
    lookupCell (imageCells addr image) other = unlistedByte := by
  induction image generalizing addr with
  | nil => rfl
  | cons v rest ih =>
    unfold imageCells
    split
    · exact ih (by omega)
    · rw [lookupCell, if_neg (by simp only; omega), ih (by omega)]

/-- The cells of an image hold its bytes. -/
theorem lookupCell_imageCells (addr k : Nat) (image : List Byte) :
    lookupCell (imageCells addr image) (addr + k) = image[k]?.getD unlistedByte := by
  induction image generalizing addr k with
  | nil => rfl
  | cons v rest ih =>
    cases k with
    | zero =>
      unfold imageCells
      split
      · rename_i hv
        rw [lookupCell_imageCells_below (by omega), hv]
        rfl
      · simp [lookupCell]
    | succ k =>
      have hk : addr + (k + 1) = addr + 1 + k := by omega
      unfold imageCells
      split
      · rw [hk, ih]
        rfl
      · rw [lookupCell, if_neg (by simp only; omega), hk, ih]
        rfl

/-- The image of a byte sequence is in canonical form. -/
theorem imageCells_wf {image : List Byte} (h : image.length ≤ 2 ^ 32) :
    Memory.wf { size := image.length, cells := imageCells 0 image } :=
  ⟨pairwise_imageCells 0 image,
    fun x hx => ⟨(mem_imageCells hx).2.2, by simpa using (mem_imageCells hx).2.1⟩, h⟩

/-- Everything construction can do: the reset state with the image's cells, or a refusal. -/
theorem construct_eq_next {image : List Byte} {s : State} :
    construct image = .next s ↔ image.length ≤ 2 ^ 32 ∧
      s = { State.reset with mem := { size := image.length, cells := imageCells 0 image } } := by
  unfold construct
  split <;> simp_all [eq_comm]

/-! ### Fetching -/

/-- The bytes fetched are those of the image, one after another. -/
theorem fetchBytes_succ_of_read {m : Memory} {addr : Nat} {v : Byte} (h : memRead m addr = some v) (count : Nat) :
    fetchBytes m addr (count + 1) = v :: fetchBytes m (addr + 1) count := by
  simp [fetchBytes, h]

theorem fetchBytes_of_end {m : Memory} {addr : Nat} (h : m.size ≤ addr) (count : Nat) : fetchBytes m addr count = [] := by
  cases count <;> simp [fetchBytes, memRead_eq_none.mpr h]

theorem length_fetchBytes (m : Memory) (addr count : Nat) :
    (fetchBytes m addr count).length = min count (m.size - addr) := by
  induction count generalizing addr with
  | zero => simp [fetchBytes]
  | succ n ih =>
    by_cases h : addr < m.size
    · rw [fetchBytes_succ_of_read (memRead_eq_some.mpr ⟨h, rfl⟩), List.length_cons, ih]
      omega
    · rw [fetchBytes_of_end (by omega)]
      simp only [List.length_nil]
      omega

/-- A write below the addresses fetched leaves them. -/
theorem fetchBytes_of_reads {m n : Memory} {addr count : Nat} (h : ∀ k, addr ≤ k → memRead n k = memRead m k) :
    fetchBytes n addr count = fetchBytes m addr count := by
  induction count generalizing addr with
  | zero => rfl
  | succ c ih =>
    have := @ih (addr + 1) fun k hk => h k (by omega)
    simp only [fetchBytes, h addr le_rfl, this]

end Sys2Proof.Machine
end

