-- ==== Sys2Proof/Laws/PerInstr.lean ====
section
/-!
SUPPORT. Statements for all instructions, one lemma a constructor (LAWS.json "per_instruction").
-/

namespace Sys2Proof.Laws

open Sys2Proof

/-- An instruction's encoding is its first byte and immediates, 1, 2 or 5 bytes long, with any parameters (R70, R71). -/
def EncodingHasOneOfTheThreeWidths.Statement (i : Instr) : Prop :=
  ∀ cfg, (encode cfg i).length = i.width ∧ (i.width = 1 ∨ i.width = 2 ∨ i.width = 5)

namespace EncodingHasOneOfTheThreeWidths

theorem add : Statement .add := fun _ => ⟨rfl, .inl rfl⟩
theorem sub : Statement .sub := fun _ => ⟨rfl, .inl rfl⟩
theorem xor : Statement .xor := fun _ => ⟨rfl, .inl rfl⟩
theorem cmp : Statement .cmp := fun _ => ⟨rfl, .inl rfl⟩
theorem jez (target : Word) : Statement (.jez target) := fun _ => ⟨rfl, .inr (.inr rfl)⟩
theorem jnz (target : Word) : Statement (.jnz target) := fun _ => ⟨rfl, .inr (.inr rfl)⟩
theorem aptr (imm : Byte) : Statement (.aptr imm) := fun _ => ⟨rfl, .inr (.inl rfl)⟩
theorem out : Statement .out := fun _ => ⟨rfl, .inl rfl⟩
theorem halt : Statement .halt := fun _ => ⟨rfl, .inl rfl⟩
theorem mvi (dst : ByteId) (imm : Byte) : Statement (.mvi dst imm) := fun _ => ⟨rfl, .inr (.inl rfl)⟩
theorem mv (dst src : ByteId) : Statement (.mv dst src) := fun _ => ⟨rfl, .inl rfl⟩
theorem mvi32 (dst : WordReg) (imm : Word) : Statement (.mvi32 dst imm) := fun _ => ⟨rfl, .inr (.inr rfl)⟩
theorem mv32 (dst src : WordReg) : Statement (.mv32 dst src) := fun _ => ⟨rfl, .inl rfl⟩

end EncodingHasOneOfTheThreeWidths

/-- Every instruction has an encoding of its own on this hardware: no canonical move is one of the nine codes (R86). -/
def EncodableOnTheHardware.Statement (i : Instr) : Prop := i.wellFormed Config.hardware = true

namespace EncodableOnTheHardware

theorem add : Statement .add := rfl
theorem sub : Statement .sub := rfl
theorem xor : Statement .xor := rfl
theorem cmp : Statement .cmp := rfl
theorem jez (target : Word) : Statement (.jez target) := rfl
theorem jnz (target : Word) : Statement (.jnz target) := rfl
theorem aptr (imm : Byte) : Statement (.aptr imm) := rfl
theorem out : Statement .out := rfl
theorem halt : Statement .halt := rfl
theorem mvi (dst : ByteId) (imm : Byte) : Statement (.mvi dst imm) := by
  rcases dst with r | _
  · cases r <;> rfl
  · rfl
theorem mv (dst src : ByteId) : Statement (.mv dst src) := by
  rcases dst with r | _ <;> rcases src with q | _
  · cases r <;> cases q <;> rfl
  · cases r <;> rfl
  · cases q <;> rfl
  · rfl
theorem mvi32 (dst : WordReg) (imm : Word) : Statement (.mvi32 dst imm) := by cases dst <;> rfl
theorem mv32 (dst src : WordReg) : Statement (.mv32 dst src) := by cases dst <;> cases src <;> rfl

end EncodableOnTheHardware

end Sys2Proof.Laws
end

