-- ==== Sys2Proof/Laws/State.lean ====
section
/-!
SUPPORT. One lemma per field per named update of the state, so that no later proof unfolds an update, and the register
accessors over each update.
-/

namespace Sys2Proof.Machine

variable (s : State)

/-! ### A byte register written -/

@[simp] theorem setByteReg_la (r : ByteReg) (v : Byte) : (setByteReg r v s).la = s.la := by cases r <;> rfl
@[simp] theorem setByteReg_lb (r : ByteReg) (v : Byte) : (setByteReg r v s).lb = s.lb := by cases r <;> rfl
@[simp] theorem setByteReg_lc (r : ByteReg) (v : Byte) : (setByteReg r v s).lc = s.lc := by cases r <;> rfl
@[simp] theorem setByteReg_ld (r : ByteReg) (v : Byte) : (setByteReg r v s).ld = s.ld := by cases r <;> rfl
@[simp] theorem setByteReg_ptr (r : ByteReg) (v : Byte) : (setByteReg r v s).ptr = s.ptr := by cases r <;> rfl
@[simp] theorem setByteReg_pc (r : ByteReg) (v : Byte) : (setByteReg r v s).pc = s.pc := by cases r <;> rfl
@[simp] theorem setByteReg_mem (r : ByteReg) (v : Byte) : (setByteReg r v s).mem = s.mem := by cases r <;> rfl
@[simp] theorem setByteReg_out (r : ByteReg) (v : Byte) : (setByteReg r v s).out = s.out := by cases r <;> rfl
@[simp] theorem setByteReg_status (r : ByteReg) (v : Byte) : (setByteReg r v s).status = s.status := by cases r <;> rfl

/-! ### A word register written -/

@[simp] theorem setWordReg_a (r : WordReg) (v : Word) : (setWordReg r v s).a = s.a := by cases r <;> rfl
@[simp] theorem setWordReg_b (r : WordReg) (v : Word) : (setWordReg r v s).b = s.b := by cases r <;> rfl
@[simp] theorem setWordReg_c (r : WordReg) (v : Word) : (setWordReg r v s).c = s.c := by cases r <;> rfl
@[simp] theorem setWordReg_d (r : WordReg) (v : Word) : (setWordReg r v s).d = s.d := by cases r <;> rfl
@[simp] theorem setWordReg_e (r : WordReg) (v : Word) : (setWordReg r v s).e = s.e := by cases r <;> rfl
@[simp] theorem setWordReg_f (r : WordReg) (v : Word) : (setWordReg r v s).f = s.f := by cases r <;> rfl
@[simp] theorem setWordReg_mem (r : WordReg) (v : Word) : (setWordReg r v s).mem = s.mem := by cases r <;> rfl
@[simp] theorem setWordReg_out (r : WordReg) (v : Word) : (setWordReg r v s).out = s.out := by cases r <;> rfl
@[simp] theorem setWordReg_status (r : WordReg) (v : Word) : (setWordReg r v s).status = s.status := by cases r <;> rfl

/-! ### The memory image replaced -/

@[simp] theorem setMem_mem (m : Memory) : (setMem m s).mem = m := rfl
@[simp] theorem setMem_a (m : Memory) : (setMem m s).a = s.a := rfl
@[simp] theorem setMem_b (m : Memory) : (setMem m s).b = s.b := rfl
@[simp] theorem setMem_c (m : Memory) : (setMem m s).c = s.c := rfl
@[simp] theorem setMem_d (m : Memory) : (setMem m s).d = s.d := rfl
@[simp] theorem setMem_e (m : Memory) : (setMem m s).e = s.e := rfl
@[simp] theorem setMem_f (m : Memory) : (setMem m s).f = s.f := rfl
@[simp] theorem setMem_la (m : Memory) : (setMem m s).la = s.la := rfl
@[simp] theorem setMem_lb (m : Memory) : (setMem m s).lb = s.lb := rfl
@[simp] theorem setMem_lc (m : Memory) : (setMem m s).lc = s.lc := rfl
@[simp] theorem setMem_ld (m : Memory) : (setMem m s).ld = s.ld := rfl
@[simp] theorem setMem_ptr (m : Memory) : (setMem m s).ptr = s.ptr := rfl
@[simp] theorem setMem_pc (m : Memory) : (setMem m s).pc = s.pc := rfl
@[simp] theorem setMem_out (m : Memory) : (setMem m s).out = s.out := rfl
@[simp] theorem setMem_status (m : Memory) : (setMem m s).status = s.status := rfl

/-! ### A byte emitted -/

@[simp] theorem emit_out (v : Byte) : (emit v s).out = s.out ++ [v] := rfl
@[simp] theorem emit_a (v : Byte) : (emit v s).a = s.a := rfl
@[simp] theorem emit_b (v : Byte) : (emit v s).b = s.b := rfl
@[simp] theorem emit_c (v : Byte) : (emit v s).c = s.c := rfl
@[simp] theorem emit_d (v : Byte) : (emit v s).d = s.d := rfl
@[simp] theorem emit_e (v : Byte) : (emit v s).e = s.e := rfl
@[simp] theorem emit_f (v : Byte) : (emit v s).f = s.f := rfl
@[simp] theorem emit_la (v : Byte) : (emit v s).la = s.la := rfl
@[simp] theorem emit_lb (v : Byte) : (emit v s).lb = s.lb := rfl
@[simp] theorem emit_lc (v : Byte) : (emit v s).lc = s.lc := rfl
@[simp] theorem emit_ld (v : Byte) : (emit v s).ld = s.ld := rfl
@[simp] theorem emit_ptr (v : Byte) : (emit v s).ptr = s.ptr := rfl
@[simp] theorem emit_pc (v : Byte) : (emit v s).pc = s.pc := rfl
@[simp] theorem emit_mem (v : Byte) : (emit v s).mem = s.mem := rfl
@[simp] theorem emit_status (v : Byte) : (emit v s).status = s.status := rfl

/-! ### The run halted -/

@[simp] theorem haltRun_status : (haltRun s).status = .halted := rfl
@[simp] theorem haltRun_a : (haltRun s).a = s.a := rfl
@[simp] theorem haltRun_b : (haltRun s).b = s.b := rfl
@[simp] theorem haltRun_c : (haltRun s).c = s.c := rfl
@[simp] theorem haltRun_d : (haltRun s).d = s.d := rfl
@[simp] theorem haltRun_e : (haltRun s).e = s.e := rfl
@[simp] theorem haltRun_f : (haltRun s).f = s.f := rfl
@[simp] theorem haltRun_la : (haltRun s).la = s.la := rfl
@[simp] theorem haltRun_lb : (haltRun s).lb = s.lb := rfl
@[simp] theorem haltRun_lc : (haltRun s).lc = s.lc := rfl
@[simp] theorem haltRun_ld : (haltRun s).ld = s.ld := rfl
@[simp] theorem haltRun_ptr : (haltRun s).ptr = s.ptr := rfl
@[simp] theorem haltRun_pc : (haltRun s).pc = s.pc := rfl
@[simp] theorem haltRun_mem : (haltRun s).mem = s.mem := rfl
@[simp] theorem haltRun_out : (haltRun s).out = s.out := rfl

/-! ### An error taken -/

@[simp] theorem takeError_status (e : ErrorRecord) : (takeError e s).status = .faulted e := rfl
@[simp] theorem takeError_a (e : ErrorRecord) : (takeError e s).a = s.a := rfl
@[simp] theorem takeError_b (e : ErrorRecord) : (takeError e s).b = s.b := rfl
@[simp] theorem takeError_c (e : ErrorRecord) : (takeError e s).c = s.c := rfl
@[simp] theorem takeError_d (e : ErrorRecord) : (takeError e s).d = s.d := rfl
@[simp] theorem takeError_e (e : ErrorRecord) : (takeError e s).e = s.e := rfl
@[simp] theorem takeError_f (e : ErrorRecord) : (takeError e s).f = s.f := rfl
@[simp] theorem takeError_la (e : ErrorRecord) : (takeError e s).la = s.la := rfl
@[simp] theorem takeError_lb (e : ErrorRecord) : (takeError e s).lb = s.lb := rfl
@[simp] theorem takeError_lc (e : ErrorRecord) : (takeError e s).lc = s.lc := rfl
@[simp] theorem takeError_ld (e : ErrorRecord) : (takeError e s).ld = s.ld := rfl
@[simp] theorem takeError_ptr (e : ErrorRecord) : (takeError e s).ptr = s.ptr := rfl
@[simp] theorem takeError_pc (e : ErrorRecord) : (takeError e s).pc = s.pc := rfl
@[simp] theorem takeError_mem (e : ErrorRecord) : (takeError e s).mem = s.mem := rfl
@[simp] theorem takeError_out (e : ErrorRecord) : (takeError e s).out = s.out := rfl

/-! ### The program counter advanced -/

@[simp] theorem advancePc_pc (w : Nat) : (advancePc w s).pc = s.pc + BitVec.ofNat 32 w := rfl
@[simp] theorem advancePc_a (w : Nat) : (advancePc w s).a = s.a := rfl
@[simp] theorem advancePc_b (w : Nat) : (advancePc w s).b = s.b := rfl
@[simp] theorem advancePc_c (w : Nat) : (advancePc w s).c = s.c := rfl
@[simp] theorem advancePc_d (w : Nat) : (advancePc w s).d = s.d := rfl
@[simp] theorem advancePc_e (w : Nat) : (advancePc w s).e = s.e := rfl
@[simp] theorem advancePc_f (w : Nat) : (advancePc w s).f = s.f := rfl
@[simp] theorem advancePc_la (w : Nat) : (advancePc w s).la = s.la := rfl
@[simp] theorem advancePc_lb (w : Nat) : (advancePc w s).lb = s.lb := rfl
@[simp] theorem advancePc_lc (w : Nat) : (advancePc w s).lc = s.lc := rfl
@[simp] theorem advancePc_ld (w : Nat) : (advancePc w s).ld = s.ld := rfl
@[simp] theorem advancePc_ptr (w : Nat) : (advancePc w s).ptr = s.ptr := rfl
@[simp] theorem advancePc_mem (w : Nat) : (advancePc w s).mem = s.mem := rfl
@[simp] theorem advancePc_out (w : Nat) : (advancePc w s).out = s.out := rfl
@[simp] theorem advancePc_status (w : Nat) : (advancePc w s).status = s.status := rfl

/-! ### Each register written, field by field -/

@[simp] theorem setByteReg_a_a (v : Byte) : (setByteReg .a v s).a = v := rfl
@[simp] theorem setByteReg_a_b (v : Byte) : (setByteReg .a v s).b = s.b := rfl
@[simp] theorem setByteReg_a_c (v : Byte) : (setByteReg .a v s).c = s.c := rfl
@[simp] theorem setByteReg_a_d (v : Byte) : (setByteReg .a v s).d = s.d := rfl
@[simp] theorem setByteReg_a_e (v : Byte) : (setByteReg .a v s).e = s.e := rfl
@[simp] theorem setByteReg_a_f (v : Byte) : (setByteReg .a v s).f = s.f := rfl
@[simp] theorem setByteReg_b_a (v : Byte) : (setByteReg .b v s).a = s.a := rfl
@[simp] theorem setByteReg_b_b (v : Byte) : (setByteReg .b v s).b = v := rfl
@[simp] theorem setByteReg_b_c (v : Byte) : (setByteReg .b v s).c = s.c := rfl
@[simp] theorem setByteReg_b_d (v : Byte) : (setByteReg .b v s).d = s.d := rfl
@[simp] theorem setByteReg_b_e (v : Byte) : (setByteReg .b v s).e = s.e := rfl
@[simp] theorem setByteReg_b_f (v : Byte) : (setByteReg .b v s).f = s.f := rfl
@[simp] theorem setByteReg_c_a (v : Byte) : (setByteReg .c v s).a = s.a := rfl
@[simp] theorem setByteReg_c_b (v : Byte) : (setByteReg .c v s).b = s.b := rfl
@[simp] theorem setByteReg_c_c (v : Byte) : (setByteReg .c v s).c = v := rfl
@[simp] theorem setByteReg_c_d (v : Byte) : (setByteReg .c v s).d = s.d := rfl
@[simp] theorem setByteReg_c_e (v : Byte) : (setByteReg .c v s).e = s.e := rfl
@[simp] theorem setByteReg_c_f (v : Byte) : (setByteReg .c v s).f = s.f := rfl
@[simp] theorem setByteReg_d_a (v : Byte) : (setByteReg .d v s).a = s.a := rfl
@[simp] theorem setByteReg_d_b (v : Byte) : (setByteReg .d v s).b = s.b := rfl
@[simp] theorem setByteReg_d_c (v : Byte) : (setByteReg .d v s).c = s.c := rfl
@[simp] theorem setByteReg_d_d (v : Byte) : (setByteReg .d v s).d = v := rfl
@[simp] theorem setByteReg_d_e (v : Byte) : (setByteReg .d v s).e = s.e := rfl
@[simp] theorem setByteReg_d_f (v : Byte) : (setByteReg .d v s).f = s.f := rfl
@[simp] theorem setByteReg_e_a (v : Byte) : (setByteReg .e v s).a = s.a := rfl
@[simp] theorem setByteReg_e_b (v : Byte) : (setByteReg .e v s).b = s.b := rfl
@[simp] theorem setByteReg_e_c (v : Byte) : (setByteReg .e v s).c = s.c := rfl
@[simp] theorem setByteReg_e_d (v : Byte) : (setByteReg .e v s).d = s.d := rfl
@[simp] theorem setByteReg_e_e (v : Byte) : (setByteReg .e v s).e = v := rfl
@[simp] theorem setByteReg_e_f (v : Byte) : (setByteReg .e v s).f = s.f := rfl
@[simp] theorem setByteReg_f_a (v : Byte) : (setByteReg .f v s).a = s.a := rfl
@[simp] theorem setByteReg_f_b (v : Byte) : (setByteReg .f v s).b = s.b := rfl
@[simp] theorem setByteReg_f_c (v : Byte) : (setByteReg .f v s).c = s.c := rfl
@[simp] theorem setByteReg_f_d (v : Byte) : (setByteReg .f v s).d = s.d := rfl
@[simp] theorem setByteReg_f_e (v : Byte) : (setByteReg .f v s).e = s.e := rfl
@[simp] theorem setByteReg_f_f (v : Byte) : (setByteReg .f v s).f = v := rfl
@[simp] theorem setWordReg_la_la (v : Word) : (setWordReg .la v s).la = v := rfl
@[simp] theorem setWordReg_la_lb (v : Word) : (setWordReg .la v s).lb = s.lb := rfl
@[simp] theorem setWordReg_la_lc (v : Word) : (setWordReg .la v s).lc = s.lc := rfl
@[simp] theorem setWordReg_la_ld (v : Word) : (setWordReg .la v s).ld = s.ld := rfl
@[simp] theorem setWordReg_la_ptr (v : Word) : (setWordReg .la v s).ptr = s.ptr := rfl
@[simp] theorem setWordReg_la_pc (v : Word) : (setWordReg .la v s).pc = s.pc := rfl
@[simp] theorem setWordReg_lb_la (v : Word) : (setWordReg .lb v s).la = s.la := rfl
@[simp] theorem setWordReg_lb_lb (v : Word) : (setWordReg .lb v s).lb = v := rfl
@[simp] theorem setWordReg_lb_lc (v : Word) : (setWordReg .lb v s).lc = s.lc := rfl
@[simp] theorem setWordReg_lb_ld (v : Word) : (setWordReg .lb v s).ld = s.ld := rfl
@[simp] theorem setWordReg_lb_ptr (v : Word) : (setWordReg .lb v s).ptr = s.ptr := rfl
@[simp] theorem setWordReg_lb_pc (v : Word) : (setWordReg .lb v s).pc = s.pc := rfl
@[simp] theorem setWordReg_lc_la (v : Word) : (setWordReg .lc v s).la = s.la := rfl
@[simp] theorem setWordReg_lc_lb (v : Word) : (setWordReg .lc v s).lb = s.lb := rfl
@[simp] theorem setWordReg_lc_lc (v : Word) : (setWordReg .lc v s).lc = v := rfl
@[simp] theorem setWordReg_lc_ld (v : Word) : (setWordReg .lc v s).ld = s.ld := rfl
@[simp] theorem setWordReg_lc_ptr (v : Word) : (setWordReg .lc v s).ptr = s.ptr := rfl
@[simp] theorem setWordReg_lc_pc (v : Word) : (setWordReg .lc v s).pc = s.pc := rfl
@[simp] theorem setWordReg_ld_la (v : Word) : (setWordReg .ld v s).la = s.la := rfl
@[simp] theorem setWordReg_ld_lb (v : Word) : (setWordReg .ld v s).lb = s.lb := rfl
@[simp] theorem setWordReg_ld_lc (v : Word) : (setWordReg .ld v s).lc = s.lc := rfl
@[simp] theorem setWordReg_ld_ld (v : Word) : (setWordReg .ld v s).ld = v := rfl
@[simp] theorem setWordReg_ld_ptr (v : Word) : (setWordReg .ld v s).ptr = s.ptr := rfl
@[simp] theorem setWordReg_ld_pc (v : Word) : (setWordReg .ld v s).pc = s.pc := rfl
@[simp] theorem setWordReg_ptr_la (v : Word) : (setWordReg .ptr v s).la = s.la := rfl
@[simp] theorem setWordReg_ptr_lb (v : Word) : (setWordReg .ptr v s).lb = s.lb := rfl
@[simp] theorem setWordReg_ptr_lc (v : Word) : (setWordReg .ptr v s).lc = s.lc := rfl
@[simp] theorem setWordReg_ptr_ld (v : Word) : (setWordReg .ptr v s).ld = s.ld := rfl
@[simp] theorem setWordReg_ptr_ptr (v : Word) : (setWordReg .ptr v s).ptr = v := rfl
@[simp] theorem setWordReg_ptr_pc (v : Word) : (setWordReg .ptr v s).pc = s.pc := rfl
@[simp] theorem setWordReg_pc_la (v : Word) : (setWordReg .pc v s).la = s.la := rfl
@[simp] theorem setWordReg_pc_lb (v : Word) : (setWordReg .pc v s).lb = s.lb := rfl
@[simp] theorem setWordReg_pc_lc (v : Word) : (setWordReg .pc v s).lc = s.lc := rfl
@[simp] theorem setWordReg_pc_ld (v : Word) : (setWordReg .pc v s).ld = s.ld := rfl
@[simp] theorem setWordReg_pc_ptr (v : Word) : (setWordReg .pc v s).ptr = s.ptr := rfl
@[simp] theorem setWordReg_pc_pc (v : Word) : (setWordReg .pc v s).pc = v := rfl

/-! ### The register accessors over each update -/

@[simp] theorem byteReg_setByteReg_self (r : ByteReg) (v : Byte) : byteReg r (setByteReg r v s) = v := by
  cases r <;> rfl

theorem byteReg_setByteReg_of_ne {q r : ByteReg} (v : Byte) (h : q ≠ r) :
    byteReg q (setByteReg r v s) = byteReg q s := by
  cases q <;> cases r <;> first | rfl | exact absurd rfl h

@[simp] theorem wordReg_setWordReg_self (r : WordReg) (v : Word) : wordReg r (setWordReg r v s) = v := by
  cases r <;> rfl

theorem wordReg_setWordReg_of_ne {q r : WordReg} (v : Word) (h : q ≠ r) :
    wordReg q (setWordReg r v s) = wordReg q s := by
  cases q <;> cases r <;> first | rfl | exact absurd rfl h

@[simp] theorem wordReg_setByteReg (q : WordReg) (r : ByteReg) (v : Byte) : wordReg q (setByteReg r v s) = wordReg q s := by cases q <;> cases r <;> rfl
@[simp] theorem byteReg_setWordReg (q : ByteReg) (r : WordReg) (v : Word) : byteReg q (setWordReg r v s) = byteReg q s := by cases q <;> cases r <;> rfl
@[simp] theorem byteReg_setMem (q : ByteReg) (m : Memory) : byteReg q (setMem m s) = byteReg q s := by cases q <;> rfl
@[simp] theorem wordReg_setMem (q : WordReg) (m : Memory) : wordReg q (setMem m s) = wordReg q s := by cases q <;> rfl
@[simp] theorem byteReg_emit (q : ByteReg) (v : Byte) : byteReg q (emit v s) = byteReg q s := by cases q <;> rfl
@[simp] theorem wordReg_emit (q : WordReg) (v : Byte) : wordReg q (emit v s) = wordReg q s := by cases q <;> rfl
@[simp] theorem byteReg_haltRun (q : ByteReg) : byteReg q (haltRun s) = byteReg q s := by cases q <;> rfl
@[simp] theorem wordReg_haltRun (q : WordReg) : wordReg q (haltRun s) = wordReg q s := by cases q <;> rfl
@[simp] theorem byteReg_takeError (q : ByteReg) (e : ErrorRecord) : byteReg q (takeError e s) = byteReg q s := by cases q <;> rfl
@[simp] theorem wordReg_takeError (q : WordReg) (e : ErrorRecord) : wordReg q (takeError e s) = wordReg q s := by cases q <;> rfl
@[simp] theorem byteReg_advancePc (q : ByteReg) (w : Nat) : byteReg q (advancePc w s) = byteReg q s := by cases q <;> rfl

theorem wordReg_advancePc_of_ne {q : WordReg} (w : Nat) (h : q ≠ .pc) : wordReg q (advancePc w s) = wordReg q s := by
  cases q <;> first | rfl | exact absurd rfl h

/-! ### Updates of the image and of the registers commute -/

@[simp] theorem setMem_setByteReg (m : Memory) (r : ByteReg) (v : Byte) :
    setMem m (setByteReg r v s) = setByteReg r v (setMem m s) := by cases r <;> rfl

@[simp] theorem setMem_setWordReg (m : Memory) (r : WordReg) (v : Word) :
    setMem m (setWordReg r v s) = setWordReg r v (setMem m s) := by cases r <;> rfl

end Sys2Proof.Machine
end

