-- ==== Sys2Proof/Laws/Step.lean ====
section
/-!
SUPPORT. What each shared operation, each instruction and a step can do, said once: inversion lemmas from which later proofs
go on without unfolding.
-/

namespace Sys2Proof.Machine

/-! ### Operands -/

/-- The address of `ptr_c` as a natural (R27). -/
theorem toNat_indirectAddress (s : State) : (indirectAddress s).toNat = (s.ptr.toNat + s.c.toNat) % 2 ^ 32 := by
  simp only [indirectAddress, BitVec.toNat_add, BitVec.toNat_setWidth]
  omega

/-- Everything a byte write can do: a register takes the byte, or the image does. -/
theorem writeByteId_eq_some {dst : ByteId} {v : Byte} {s t : State} :
    writeByteId dst v s = some t ↔
      (∃ r, dst = .reg r ∧ t = setByteReg r v s) ∨
      (dst = .ptrC ∧ ∃ m, memWrite s.mem (indirectAddress s).toNat v = some m ∧ t = setMem m s) := by
  cases dst <;> simp [writeByteId, eq_comm]

/-- A byte operand fails exactly where it is `ptr_c` at or past `N`. -/
theorem readByteId_eq_none {src : ByteId} {s : State} :
    readByteId src s = none ↔ src = .ptrC ∧ s.mem.size ≤ (indirectAddress s).toNat := by
  cases src <;> simp [readByteId, memRead_eq_none]

theorem writeByteId_eq_none {dst : ByteId} {v : Byte} {s : State} :
    writeByteId dst v s = none ↔ dst = .ptrC ∧ s.mem.size ≤ (indirectAddress s).toNat := by
  cases dst <;> simp [writeByteId, memWrite]

/-! ### Instructions -/

/-- Everything an instruction with a `ptr_c` operand can do: its own next state, or AddressError. -/
theorem orAddressError_eq_next {i : Instr} {s t : State} {result : Option State}
    (h : orAddressError i s result = .next t) :
    result = some t ∨ (result = none ∧ t = takeError (.addressError (opcodeAddress i.width s)) s) := by
  unfold orAddressError at h
  split at h
  · exact .inl (by rw [Host.Outcome.next.inj h])
  · exact .inr ⟨rfl, (Host.Outcome.next.inj h).symm⟩

/-- Every instruction answers a next state, in every state. -/
theorem exec_answers_next (i : Instr) (s : State) : ∃ t, exec i s = .next t := by
  have hor : ∀ i s result, ∃ t, orAddressError i s result = .next t := by
    intro i s result
    cases result <;> exact ⟨_, rfl⟩
  cases i
  case mv dst src => exact hor _ _ _
  case mvi dst imm => exact hor _ _ _
  all_goals exact ⟨_, rfl⟩

/-- Everything MV can do. -/
theorem execMv_eq_next {dst src : ByteId} {s t : State} (h : execMv dst src s = .next t) :
    (∃ v, readByteId src s = some v ∧ writeByteId dst v s = some t) ∨
    ((src = .ptrC ∨ dst = .ptrC) ∧ s.mem.size ≤ (indirectAddress s).toNat ∧
      t = takeError (.addressError (opcodeAddress 1 s)) s) := by
  rcases orAddressError_eq_next h with hw | ⟨hw, rfl⟩
  · exact .inl (Option.bind_eq_some_iff.mp hw)
  · refine .inr ?_
    rcases hr : readByteId src s with _ | v
    · exact ⟨.inl (readByteId_eq_none.mp hr).1, (readByteId_eq_none.mp hr).2, rfl⟩
    · rw [hr, Option.bind_some] at hw
      exact ⟨.inr (writeByteId_eq_none.mp hw).1, (writeByteId_eq_none.mp hw).2, rfl⟩

/-- Everything MVI can do. -/
theorem execMvi_eq_next {dst : ByteId} {imm : Byte} {s t : State} (h : execMvi dst imm s = .next t) :
    writeByteId dst imm s = some t ∨
    (dst = .ptrC ∧ s.mem.size ≤ (indirectAddress s).toNat ∧ t = takeError (.addressError (opcodeAddress 2 s)) s) := by
  rcases orAddressError_eq_next h with hw | ⟨hw, rfl⟩
  · exact .inl hw
  · exact .inr ⟨(writeByteId_eq_none.mp hw).1, (writeByteId_eq_none.mp hw).2, rfl⟩

/-- What an instruction does to the image: nothing, or one write through `ptr_c` by MV or MVI. -/
theorem exec_mem {i : Instr} {s t : State} (h : exec i s = .next t) :
    t.mem = s.mem ∨
    (((∃ src, i = .mv .ptrC src) ∨ ∃ imm, i = .mvi .ptrC imm) ∧
      ∃ v, memWrite s.mem (indirectAddress s).toNat v = some t.mem) := by
  have hw : ∀ {dst v}, writeByteId dst v s = some t →
      t.mem = s.mem ∨ (dst = .ptrC ∧ ∃ v, memWrite s.mem (indirectAddress s).toNat v = some t.mem) := by
    intro dst v hw
    rcases writeByteId_eq_some.mp hw with ⟨r, -, rfl⟩ | ⟨rfl, m, hm, rfl⟩
    · exact .inl (by simp)
    · exact .inr ⟨rfl, v, by simpa using hm⟩
  cases i
  case mv dst src =>
    rcases execMv_eq_next h with ⟨v, -, hv⟩ | ⟨-, -, rfl⟩
    · rcases hw hv with hm | ⟨rfl, hm⟩
      · exact .inl hm
      · exact .inr ⟨.inl ⟨src, rfl⟩, hm⟩
    · exact .inl rfl
  case mvi dst imm =>
    rcases execMvi_eq_next h with hv | ⟨-, -, rfl⟩
    · rcases hw hv with hm | ⟨rfl, hm⟩
      · exact .inl hm
      · exact .inr ⟨.inr ⟨imm, rfl⟩, hm⟩
    · exact .inl rfl
  all_goals
    left
    rw [← Host.Outcome.next.inj h]
    first | rfl | (split <;> rfl) | simp

/-! ### Fetch and step -/

/-- Where bytes stand in the image, a fetch gives them first. -/
theorem fetchBytes_of_holdsAt {m : Memory} {addr : Nat} {bytes : List Byte} (h : HoldsAt m addr bytes) (count : Nat) :
    fetchBytes m addr (bytes.length + count) = bytes ++ fetchBytes m (addr + bytes.length) count := by
  induction bytes generalizing addr with
  | nil => simp
  | cons v rest ih =>
    have hv : memRead m addr = some v := h 0 (by simp)
    have hrest : HoldsAt m (addr + 1) rest := by
      intro k hk
      have := h (k + 1) (by simpa using hk)
      rw [show addr + (k + 1) = addr + 1 + k by omega] at this
      simpa using this
    rw [List.length_cons, show rest.length + 1 + count = rest.length + count + 1 by omega,
      fetchBytes_succ_of_read hv, ih hrest, List.cons_append, show addr + 1 + rest.length = addr + (rest.length + 1) by omega]

/-- A fetch of fewer bytes gives the first of them. -/
theorem fetchBytes_take (m : Memory) (addr n count : Nat) (h : n ≤ count) :
    (fetchBytes m addr count).take n = fetchBytes m addr n := by
  induction n generalizing addr count with
  | zero => rfl
  | succ n ih =>
    obtain ⟨count, rfl⟩ := Nat.exists_eq_add_of_le' (show 1 ≤ count by omega)
    rw [fetchBytes, fetchBytes]
    split
    · rw [List.take_succ_cons, ih _ _ (by omega)]
    · rfl

/-- The instruction fetched is the one that the bytes at `pc` decode to. -/
theorem fetchInstr_of_holdsAt {cfg : Config} {s : State} {bytes : List Byte} {i : Instr}
    (h : HoldsAt s.mem s.pc.toNat bytes) (hd : decodeBytes cfg bytes = .ok i) : fetchInstr cfg s = .ok i := by
  have := fetchBytes_take s.mem s.pc.toNat maxWidth (bytes.length + maxWidth) (by omega)
  rw [fetchInstr, ← this, decodeBytes_take _ _ le_rfl, fetchBytes_of_holdsAt h]
  exact decodeBytes_append hd _

theorem stepWith_of_running {s : State} (h : s.status = .running) (cfg : Config) :
    stepWith cfg s =
      match fetchInstr cfg s with
      | .error r => .next (takeError (rejectRecord s.pc r) s)
      | .ok i => exec i (advancePc i.width s) := by
  have hstop : stopReason s = none := by rw [stopReason, h]
  unfold stepWith
  generalize stopReason s = x at hstop
  subst hstop
  rfl

/-- Everything a step can do: from Running, take the error of an instruction that cannot be decoded, or run the one that
is. -/
theorem stepWith_eq_next {cfg : Config} {s t : State} (h : stepWith cfg s = .next t) :
    s.status = .running ∧
    ((∃ r, fetchInstr cfg s = .error r ∧ t = takeError (rejectRecord s.pc r) s) ∨
     (∃ i, fetchInstr cfg s = .ok i ∧ exec i (advancePc i.width s) = .next t)) := by
  have hrun : s.status = .running := by
    unfold stepWith stopReason at h
    split at h
    · exact absurd h (by simp)
    · rename_i hs
      split at hs <;> simp_all
  refine ⟨hrun, ?_⟩
  rw [stepWith_of_running hrun] at h
  split at h
  · exact .inl ⟨_, by assumption, (Host.Outcome.next.inj h).symm⟩
  · exact .inr ⟨_, by assumption, h⟩

/-- Subtracting the width from the advanced `pc` gives back `pc0` (notes/assumptions/10.md). -/
@[simp] theorem opcodeAddress_advancePc (w : Nat) (s : State) : opcodeAddress w (advancePc w s) = s.pc := by
  simp [opcodeAddress]

end Sys2Proof.Machine
end

