-- ==== Sys2Proof/Tests/Slice0.lean ====
section
/-!
SUPPORT. The model's own tests. Expected results come from the spec: the worked examples and vectors of
95_test_vectors.md (named W, D, A, B, M, O there), the map of R84, or the rule named. Then, for each statement of
Certificates/Slice0/Obligations.lean that has hypotheses, a state and operands that meet all of them together.
-/

namespace Sys2Proof.Tests

open Sys2Proof Sys2Proof.Machine

/-- A state with that image, otherwise as at reset. -/
def imageState (image : List Byte) : State :=
  { State.reset with mem := { size := image.length, cells := imageCells 0 image } }

/-- The next state of an outcome. -/
def nextOf : Host.Outcome State Fault Refusal → Option State
  | .next t => some t
  | _ => none

/-- The fault of an outcome. -/
def faultOf : Host.Outcome State Fault Refusal → Option Fault
  | .fault r => some r
  | _ => none

/-- The result of a run. -/
def resultOfRun : Host.Outcome RunResult Fault Refusal → Option RunResult
  | .next r => some r
  | _ => none

/-- This hardware with `HIGH_PAIR_MODE = strict`. -/
def strictConfig : Config := { Config.hardware with highPairMode := .strict }

/-- A parameter set in which ADD takes the byte that canonical `MVI a` would have. -/
def clashConfig : Config := { Config.hardware with opcAdd := 0x48#8 }

/-! ### WellFormed: an ill-formed term for each check -/

theorem test_hardware_config_is_well_formed : Config.hardware.wellFormed = true := by decide
theorem test_equal_codes_are_refused :
    Config.wellFormed { Config.hardware with opcAdd := 0xC3#8 } = false := by decide
theorem test_mvi_on_a_fixed_code_is_refused : Instr.wellFormed clashConfig (.mvi (.reg .a) 0#8) = false := by decide
theorem test_mv_on_a_fixed_code_is_refused :
    Instr.wellFormed { Config.hardware with opcSub := 0x4A#8 } (.mv (.reg .a) (.reg .b)) = false := by decide
theorem test_mvi32_on_a_fixed_code_is_refused :
    Instr.wellFormed { Config.hardware with opcXor := 0xA8#8 } (.mvi32 .ptr 0#32) = false := by decide
theorem test_mv32_on_a_fixed_code_is_refused :
    Instr.wellFormed { Config.hardware with opcOut := 0xB1#8 } (.mv32 .pc .la) = false := by decide
theorem test_unsorted_cells_are_refused : ¬ Memory.wf { size := 4, cells := [(2, 1#8), (1, 1#8)] } := by decide
theorem test_a_listed_zero_is_refused : ¬ Memory.wf { size := 4, cells := [(2, 0#8)] } := by decide
theorem test_a_cell_past_the_end_is_refused : ¬ Memory.wf { size := 4, cells := [(4, 1#8)] } := by decide
theorem test_too_large_an_image_is_refused : ¬ Memory.wf { size := 2 ^ 32 + 1, cells := [] } := by decide

/-! ### Decoding: a word of each instruction, written out from its encoding (R71, R75, R76) -/

theorem test_decode_add : decodeBytes Config.hardware [0b11000010#8] = .ok .add := by decide
theorem test_decode_sub : decodeBytes Config.hardware [0b11000011#8] = .ok .sub := by decide
theorem test_decode_xor : decodeBytes Config.hardware [0b11000100#8] = .ok .xor := by decide
theorem test_decode_cmp : decodeBytes Config.hardware [0b11000001#8] = .ok .cmp := by decide
theorem test_decode_out : decodeBytes Config.hardware [0b00000010#8] = .ok .out := by decide
theorem test_decode_halt : decodeBytes Config.hardware [0b00000001#8] = .ok .halt := by decide
theorem test_decode_aptr : decodeBytes Config.hardware [0b11100001#8, 0xFF#8] = .ok (.aptr 0xFF#8) := by decide
theorem test_decode_jez :
    decodeBytes Config.hardware [0b00100001#8, 0x78#8, 0x56#8, 0x34#8, 0x12#8] = .ok (.jez 0x12345678#32) := by decide
theorem test_decode_jnz :
    decodeBytes Config.hardware [0b00100010#8, 0x04#8, 0x00#8, 0x00#8, 0x80#8] = .ok (.jnz 0x80000004#32) := by decide
theorem test_decode_mvi : decodeBytes Config.hardware [0b01110000#8, 0x80#8] = .ok (.mvi (.reg .f) 0x80#8) := by decide
theorem test_decode_mv : decodeBytes Config.hardware [0b01011111#8] = .ok (.mv (.reg .c) .ptrC) := by decide
theorem test_decode_mvi32 :
    decodeBytes Config.hardware [0b10101000#8, 0xFE#8, 0xFF#8, 0xFF#8, 0xFF#8] = .ok (.mvi32 .ptr 0xFFFFFFFE#32) := by
  decide
theorem test_decode_mv32 : decodeBytes Config.hardware [0b10110001#8] = .ok (.mv32 .pc .la) := by decide

/-- The counts of R84: nine fixed codes, 14 MVI, 97 MV, 6 MVI32, 36 MV32, 34 `!reg`, 60 `!op`. -/
def countOpcodes (cfg : Config) (p : Except DecodeReject Opcode → Bool) : Nat :=
  ((List.range 256).filter fun op => p (decodeOpcode cfg (BitVec.ofNat 8 op))).length

def isMvi : Except DecodeReject Opcode → Bool | .ok (.mvi _) => true | _ => false
def isMv : Except DecodeReject Opcode → Bool | .ok (.mv _ _) => true | _ => false
def isMvi32 : Except DecodeReject Opcode → Bool | .ok (.mvi32 _) => true | _ => false
def isMv32 : Except DecodeReject Opcode → Bool | .ok (.mv32 _ _) => true | _ => false
def isBadRegister : Except DecodeReject Opcode → Bool | .error (.badRegister _) => true | _ => false
def isNoMatch : Except DecodeReject Opcode → Bool | .error (.noMatch _) => true | _ => false

theorem test_opcode_map_literal :
    [isMvi, isMv, isMvi32, isMv32, isBadRegister, isNoMatch].map (countOpcodes Config.hardware) =
      [14, 97, 6, 36, 34, 60] := by decide +kernel
theorem test_opcode_map_strict :
    [isMvi, isMv, isMvi32, isMv32, isBadRegister, isNoMatch].map (countOpcodes strictConfig) =
      [7, 49, 6, 36, 30, 119] := by decide +kernel

/-- D12 and C2: `FF` in both modes. -/
theorem test_decode_ff_literal : decodeBytes Config.hardware [0xFF#8] = .ok (.mv .ptrC .ptrC) := by decide
theorem test_decode_ff_strict : decodeBytes strictConfig [0xFF#8] = .error (.noMatch 0xFF#8) := by decide
/-- D3 and D5: the register id is checked before the immediate. -/
theorem test_decode_bad_register_first : decodeBytes Config.hardware [0x40#8] = .error (.badRegister 0x40#8) := by decide
/-- D9. -/
theorem test_decode_mv32_source_seven : decodeBytes Config.hardware [0x8F#8] = .error (.badRegister 0x8F#8) := by decide
/-- D6. -/
theorem test_decode_truncated_jump :
    decodeBytes Config.hardware [0x21#8, 0#8, 0#8, 0#8] = .error .truncated := by decide
/-- D1. -/
theorem test_decode_nothing : decodeBytes Config.hardware [] = .error .noOpcode := by decide

/-- R86: the encodings named in vectors M3, M7 and B8. -/
theorem test_encode_mv : encode Config.hardware (.mv (.reg .c) .ptrC) = [0x5F#8] := by decide
theorem test_encode_mv32 : encode Config.hardware (.mv32 .la .pc) = [0x8E#8] := by decide
theorem test_encode_jez :
    encode Config.hardware (.jez 0x12345678#32) = [0x21#8, 0x78#8, 0x56#8, 0x34#8, 0x12#8] := by decide

/-! ### The host's view of a word -/

theorem test_table_word_jez : decodeTableWord 40 0x1234567821 = some (.jez 0x12345678#32) := by decide
theorem test_table_word_masks_the_rest : decodeTableWord 8 0x0548 = some (.mvi (.reg .a) 0#8) := by decide
theorem test_first_step_after_reset_runs_the_word :
    (nextOf (step (State.reset.withFetchWord 16 0x4148))).map (fun t => (t.a, t.pc)) = some (0x41#8, 2#32) := by decide
/-- At the top of the address space the image grows to 2^32 bytes and no further. -/
theorem test_fetch_word_at_the_top :
    ({ State.reset with pc := 0xFFFFFFFF#32 }.withFetchWord 8 0xC2).mem.size = 2 ^ 32 ∧
    (nextOf (step ({ State.reset with pc := 0xFFFFFFFF#32 }.withFetchWord 8 0xC2))).map (fun t => t.pc) = some 0#32 := by
  decide

/-! ### Steps -/

/-- W2, A6: the sum wraps, and `f` is kept. -/
theorem test_add : (nextOf (step { imageState [0xC2#8] with a := 0xFA#8, b := 0x0A#8, f := 0x42#8 })).map
    (fun t => (t.a, t.f, t.pc)) = some (0x04#8, 0x42#8, 1#32) := by decide
/-- W3. -/
theorem test_sub : (nextOf (step { imageState [0xC3#8] with a := 0x05#8, b := 0x0A#8 })).map
    (fun t => (t.a, t.b)) = some (0xFB#8, 0x0A#8) := by decide
/-- A12. -/
theorem test_xor : (nextOf (step { imageState [0xC4#8] with a := 0x5A#8, b := 0xFF#8 })).map
    (fun t => t.a) = some 0xA5#8 := by decide
/-- A16. -/
theorem test_cmp_equal : (nextOf (step { imageState [0xC1#8] with a := 7#8, b := 7#8, f := 0x42#8 })).map
    (fun t => t.f) = some 0#8 := by decide
/-- A17. -/
theorem test_cmp_different : (nextOf (step { imageState [0xC1#8] with a := 7#8, b := 9#8 })).map
    (fun t => t.f) = some 1#8 := by decide
/-- B8. -/
theorem test_jez_taken : (nextOf (step (imageState [0x21#8, 0x78#8, 0x56#8, 0x34#8, 0x12#8]))).map
    (fun t => t.pc) = some 0x12345678#32 := by decide
/-- B3. -/
theorem test_jez_not_taken : (nextOf (step { imageState [0x21#8, 0x40#8, 0#8, 0#8, 0#8] with f := 0x80#8 })).map
    (fun t => t.pc) = some 5#32 := by decide
/-- B6. -/
theorem test_jnz_taken : (nextOf (step { imageState [0x22#8, 0x08#8, 0#8, 0#8, 0#8] with f := 0x80#8 })).map
    (fun t => t.pc) = some 8#32 := by decide
/-- B9. -/
theorem test_jnz_not_taken : (nextOf (step (imageState [0x22#8, 0x10#8, 0#8, 0#8, 0#8, 1#8]))).map
    (fun t => t.pc) = some 5#32 := by decide
/-- M1 and M2: the sum wraps at 2^32, and the byte is not sign-extended. -/
theorem test_aptr_wraps : (nextOf (step { imageState [0xE1#8, 1#8] with ptr := 0xFFFFFFFF#32 })).map
    (fun t => (t.ptr, t.pc)) = some (0#32, 2#32) := by decide
theorem test_aptr_unsigned : (nextOf (step (imageState [0xE1#8, 0xFF#8]))).map (fun t => t.ptr) = some 0xFF#32 := by
  decide
/-- M3: the address uses `c` as it was before the move. -/
theorem test_mv_load : (nextOf (step { imageState [0x5F#8, 0x09#8] with ptr := 0xFFFFFFFE#32, c := 3#8 })).map
    (fun t => t.c) = some 9#8 := by decide
/-- W7: the byte at `ptr + c` takes `a`, and no other byte changes. -/
theorem test_mv_store : (nextOf (step { imageState [0x79#8, 1#8, 2#8, 3#8] with a := 0xAA#8, ptr := 1#32, c := 1#8 })).map
    (fun t => t.mem) = some { size := 4, cells := [(0, 0x79#8), (1, 1#8), (2, 0xAA#8), (3, 3#8)] } := by decide
/-- M4: AddressError at the opcode byte of the MVI, nothing written. -/
theorem test_mvi_out_of_range :
    (nextOf (step { imageState [0x58#8, 0x10#8, 0x78#8, 0xAA#8, 1#8] with pc := 2#32, c := 0x10#8 })).map
      (fun t => (t.status, t.mem.cells.length)) = some (.faulted (.addressError 2#32), 5) := by decide
/-- M8. -/
theorem test_mvi_store : (nextOf (step { imageState [0x78#8, 7#8] with c := 1#8 })).map
    (fun t => memRead t.mem 1) = some (some 7#8) := by decide
/-- M7: `pc` reads as advanced. -/
theorem test_mv32_reads_the_advanced_pc :
    (nextOf (step (State.withFetchWord { State.reset with pc := 0x10#32 } 8 0x8E))).map (fun t => t.la) =
      some 0x11#32 := by decide
/-- M5. -/
theorem test_mv32_pc_to_pc : (nextOf (step (imageState [0xB6#8, 1#8]))).map (fun t => t.pc) = some 1#32 := by decide
/-- M6. -/
theorem test_mvi32_jumps : (nextOf (step (imageState [0xB0#8, 6#8, 0#8, 0#8, 0#8, 0#8, 1#8]))).map
    (fun t => t.pc) = some 6#32 := by decide
/-- M12. -/
theorem test_mvi32 : (nextOf (step (imageState [0xA8#8, 0x64#8, 0#8, 0#8, 0#8]))).map
    (fun t => (t.ptr, t.pc)) = some (0x64#32, 5#32) := by decide
/-- O2, O3: bytes go to the end. -/
theorem test_out : (nextOf (step { imageState [2#8] with a := 0x41#8, out := [3#8] })).map
    (fun t => t.out) = some [3#8, 0x41#8] := by decide
/-- O1. -/
theorem test_halt : (nextOf (step (imageState [1#8]))).map (fun t => (t.status, t.pc)) = some (.halted, 1#32) := by
  decide
/-- R31: no step after the end. -/
theorem test_no_step_after_halt :
    faultOf (step { imageState [1#8] with status := .halted }) = some .stepAfterHalt := by decide
/-- D2: the error is taken, and `pc` stays. -/
theorem test_decode_error : (nextOf (step (imageState [0#8]))).map (fun t => (t.status, t.pc)) =
    some (.faulted (.decodeError 0#32 0#8), 0#32) := by decide
/-- D4. -/
theorem test_missing_immediate : (nextOf (step (imageState [0x48#8]))).map (fun t => t.status) =
    some (.faulted (.addressError 0#32)) := by decide
/-- D1, at reset. -/
theorem test_empty_image : (nextOf (step State.reset)).map (fun t => t.status) =
    some (.faulted (.addressError 0#32)) := by decide
/-- R200, R203: the record of a DecodeError. -/
theorem test_error_record :
    (errorCode (errorKind (.decodeError 3#32 0xFF#8)), errorPc0 (.decodeError 3#32 0xFF#8),
      errorOpcode (.decodeError 3#32 0xFF#8), errorCode (errorKind (.addressError 0#32)),
      errorOpcode (.addressError 0#32)) = (1, 3#32, some 0xFF#8, 2, none) := by decide
/-- R15: one step of fuel is not enough to reach HALT at the second instruction. -/
theorem test_out_of_fuel :
    resultOfRun (run Config.hardware [2#8, 1#8] 1) = some .outOfFuel ∧
    resultOfRun (run Config.hardware [2#8, 1#8] 2) = some (.halted [0#8]) := by decide

/-! ### Witnesses: every statement's hypotheses can be met -/

/-- The hypotheses of `StepsAs` for those bytes, at the image that is just them. -/
abbrev Ready (bytes : List Byte) : Prop :=
  Config.hardware.wellFormed = true ∧ (imageState bytes).status = .running ∧
    HoldsAt (imageState bytes).mem (imageState bytes).pc.toNat bytes

theorem test_witness_AddWritesTheSumModulo256 : Ready [Config.hardware.opcAdd] := by decide
theorem test_witness_SubWritesTheDifferenceModulo256 : Ready [Config.hardware.opcSub] := by decide
theorem test_witness_XorWritesTheBitwiseExclusiveOr : Ready [Config.hardware.opcXor] := by decide
theorem test_witness_CmpWritesWhetherTheBytesDiffer : Ready [Config.hardware.opcCmp] := by decide
theorem test_witness_AptrAddsTheUnsignedByteToPtr : Ready [Config.hardware.opcAptr, 0x80#8] := by decide
theorem test_witness_OutAppendsTheByteA : Ready [Config.hardware.opcOut] ∧
    exec .halt (imageState []) = .next { imageState [] with status := .halted } ∧ Instr.halt ≠ .out :=
  ⟨by decide, rfl, by decide⟩
theorem test_witness_HaltEndsTheRunWithTheOutput : Ready [Config.hardware.opcHalt] ∧
    (haltRun (imageState [])).status = .halted ∧ (imageState [1#8]).status = .running ∧
    stepWith Config.hardware (imageState [1#8]) = .next { imageState [1#8] with pc := 1#32, status := .halted } :=
  ⟨by decide, rfl, rfl, rfl⟩
theorem test_witness_JezJumpsWhereTheFlagIsZero :
    Ready [Config.hardware.opcJez, 1#8, 2#8, 3#8, 4#8] ∧
    (imageState []).mem.size ≤ (imageState []).pc.toNat ∧
    (memRead (imageState [0x21#8, 0#8, 0#8, 0#8]).mem 0 = some Config.hardware.opcJez ∧
      (imageState [0x21#8, 0#8, 0#8, 0#8]).mem.size ≤ (imageState [0x21#8, 0#8, 0#8, 0#8]).pc.toNat + 4) ∧
    (exec (.jez 5#32) (imageState [0#8]) = .next { imageState [0#8] with pc := 5#32 } ∧
      (imageState [0#8]).f = 0x00#8 ∧ (imageState [0#8]).status = .running ∧ (imageState [0#8]).mem.size ≤ 5) :=
  ⟨by decide, by decide, by decide, rfl, by decide, rfl, by decide⟩
theorem test_witness_JnzJumpsWhereTheFlagIsNotZero :
    Ready [Config.hardware.opcJnz, 1#8, 2#8, 3#8, 4#8] ∧
    (imageState []).mem.size ≤ (imageState []).pc.toNat ∧
    (memRead (imageState [0x22#8, 0#8, 0#8, 0#8]).mem 0 = some Config.hardware.opcJnz ∧
      (imageState [0x22#8, 0#8, 0#8, 0#8]).mem.size ≤ (imageState [0x22#8, 0#8, 0#8, 0#8]).pc.toNat + 4) ∧
    (exec (.jnz 5#32) { imageState [0#8] with f := 2#8 } = .next { imageState [0#8] with f := 2#8, pc := 5#32 } ∧
      { imageState [0#8] with f := 2#8 }.f ≠ 0x00#8 ∧ { imageState [0#8] with f := 2#8 }.status = .running ∧
      { imageState [0#8] with f := 2#8 }.mem.size ≤ 5) :=
  ⟨by decide, by decide, by decide, rfl, by decide, rfl, by decide⟩
theorem test_witness_AluInstructionsOnlyComputeAndFallThrough :
    (Instr.add = .add) ∧ (imageState [0xC2#8]).status = .running ∧
    fetchInstr Config.hardware (imageState [0xC2#8]) = .ok .add ∧
    stepWith Config.hardware (imageState [0xC2#8]) = .next { imageState [0xC2#8] with pc := 1#32 } :=
  ⟨rfl, rfl, rfl, rfl⟩
theorem test_witness_AluFrame :
    exec .sub { imageState [] with b := 1#8 } = .next { imageState [] with a := 0xFF#8, b := 1#8 } ∧
    exec .cmp { imageState [] with b := 1#8 } = .next { imageState [] with b := 1#8, f := 1#8 } := ⟨rfl, rfl⟩
theorem test_witness_ThePcChangesOnlyInTheWaysTheSpecLists :
    (imageState [0xB1#8]).status = .running ∧ fetchInstr Config.hardware (imageState [0xB1#8]) = .ok (.mv32 .pc .la) ∧
    stepWith Config.hardware { imageState [0xB1#8] with la := 9#32 } =
      .next { imageState [0xB1#8] with la := 9#32, pc := 9#32 } := ⟨rfl, rfl, rfl⟩
/-- The sum wraps to 1, the last address below `N`. -/
theorem test_witness_MvIntoARegisterTakesTheSourceByte :
    ({ imageState [0#8, 7#8] with ptr := 0xFFFFFFFF#32, c := 2#8 }.ptr.toNat +
      { imageState [0#8, 7#8] with ptr := 0xFFFFFFFF#32, c := 2#8 }.c.toNat) % 2 ^ 32 <
      { imageState [0#8, 7#8] with ptr := 0xFFFFFFFF#32, c := 2#8 }.mem.size := by decide
theorem test_witness_MvIntoMemoryStoresTheSourceByte :
    ((imageState [0#8]).ptr.toNat + (imageState [0#8]).c.toNat) % 2 ^ 32 < (imageState [0#8]).mem.size := by decide
theorem test_witness_MviWritesTheImmediateByte :
    ({ imageState [0#8, 0#8] with c := 1#8 }.ptr.toNat + { imageState [0#8, 0#8] with c := 1#8 }.c.toNat) % 2 ^ 32 <
      { imageState [0#8, 0#8] with c := 1#8 }.mem.size := by decide
theorem test_witness_MovesThroughPtrCOutOfRangeTakeAddressError :
    { imageState [0#8, 0#8] with c := 2#8 }.mem.size ≤
      ({ imageState [0#8, 0#8] with c := 2#8 }.ptr.toNat + { imageState [0#8, 0#8] with c := 2#8 }.c.toNat) % 2 ^ 32 ∧
    (ByteId.ptrC = .ptrC ∨ ByteId.reg .a = .ptrC) := by decide
theorem test_witness_ByteRegisterMoveFrame :
    exec (.mv (.reg .e) .ptrC) (imageState [7#8]) = .next { imageState [7#8] with e := 7#8 } ∧
    exec (.mv (.reg .e) .ptrC) { imageState [] with pc := 1#32 } =
      .next { imageState [] with pc := 1#32, status := .faulted (.addressError 0#32) } ∧
    exec (.mvi (.reg .d) 3#8) (imageState []) = .next { imageState [] with d := 3#8 } := ⟨rfl, rfl, rfl⟩
theorem test_witness_StoreFrame :
    exec (.mv .ptrC (.reg .a)) { imageState [7#8] with a := 9#8 } =
      .next { imageState [7#8] with a := 9#8, mem := { size := 1, cells := [(0, 9#8)] } } ∧
    exec (.mvi .ptrC 0#8) (imageState [7#8]) = .next { imageState [7#8] with mem := { size := 1, cells := [] } } ∧
    exec (.mvi .ptrC 0#8) { imageState [] with pc := 2#32 } =
      .next { imageState [] with pc := 2#32, status := .faulted (.addressError 0#32) } := ⟨rfl, rfl, rfl⟩
theorem test_witness_BranchAndWordMoveFrame :
    exec (.jez 4#32) (imageState []) = .next { imageState [] with pc := 4#32 } ∧
    exec (.aptr 4#8) (imageState []) = .next { imageState [] with ptr := 4#32 } ∧
    exec (.mvi32 .ld 4#32) (imageState []) = .next { imageState [] with ld := 4#32 } := ⟨rfl, rfl, rfl⟩
theorem test_witness_EachPartOfTheStateHasOnlyItsNamedWriters :
    exec (.mvi (.reg .e) 1#8) (imageState []) = .next { imageState [] with e := 1#8 } ∧
    byteReg .e { imageState [] with e := 1#8 } ≠ byteReg .e (imageState []) := ⟨rfl, by decide⟩
theorem test_witness_OnlyPtrCOperandsReachDataMemory :
    (∀ src, Instr.mv (.reg .a) (.reg .b) ≠ .mv .ptrC src) ∧ (∀ dst, Instr.mv (.reg .a) (.reg .b) ≠ .mv dst .ptrC) ∧
    (∀ imm, Instr.mv (.reg .a) (.reg .b) ≠ .mvi .ptrC imm) ∧
    exec (.mv (.reg .a) (.reg .b)) (imageState [1#8]) = .next (imageState [1#8]) :=
  ⟨by simp, by simp, by simp, rfl⟩
/-- Addresses 0 and 1 of an image of one byte: below `N`, and at it. -/
theorem test_witness_AMemoryWriteChangesExactlyOneByte :
    0 < (imageState [1#8]).mem.size ∧ (imageState [1#8]).mem.size ≤ 1 ∧
    (memWrite (imageState [1#8]).mem 1 5#8).isNone ∧ (memWrite (imageState [1#8]).mem 0 5#8).isSome := by decide
theorem test_witness_WellFormedImagesThatReadTheSameAreEqual :
    (imageState [1#8]).mem.wf ∧ ReadsSame (imageState [1#8]).mem (imageState [1#8]).mem := ⟨by decide, fun _ => rfl⟩
theorem test_witness_PtrCIsTheByteAtPtrPlusCModulo32Bits :
    (writeByteId .ptrC 5#8 { imageState [1#8, 2#8] with ptr := 0xFFFFFFFE#32, c := 3#8 }).map (fun t => memRead t.mem 1) =
      some (some 5#8) := by decide
theorem test_witness_TheNextFetchSeesAWrittenByte :
    memWrite (imageState [1#8, 2#8]).mem 0 5#8 = some { size := 2, cells := [(0, 5#8), (1, 2#8)] } := by decide
theorem test_witness_DecodingAnEncodedInstructionGivesItBack :
    Config.hardware.wellFormed = true ∧ strictConfig.wellFormed = true ∧
    Instr.wellFormed Config.hardware (.mv .ptrC .ptrC) = true ∧
    Instr.wellFormed strictConfig (.mvi32 .pc 0xFFFFFFFF#32) = true := by decide
/-- Both disjuncts: a canonical byte and an alias (D11, D15). -/
theorem test_witness_DecodedBytesAreTheEncodingOrItsHighPairAlias :
    decodeBytes Config.hardware [0x61#8] = .ok (.mv (.reg .d) (.reg .a)) ∧
    decodeBytes Config.hardware [0xC8#8, 0x33#8] = .ok (.mvi (.reg .a) 0x33#8) := by decide
theorem test_witness_FourByteImmediatesAreLittleEndian :
    Config.hardware.wellFormed = true ∧ decodeOpcode Config.hardware 0xA8#8 = .ok (.mvi32 .ptr) ∧
    (imageState []).f = 0x00#8 ∧ { imageState [] with f := 2#8 }.f ≠ 0x00#8 := by decide
theorem test_witness_TheOpcodeByteSettlesTheWidth :
    decodeBytes Config.hardware [0x48#8, 1#8] = .ok (.mvi (.reg .a) 1#8) ∧
    decodeBytes Config.hardware [0x48#8, 2#8, 3#8] = .ok (.mvi (.reg .a) 2#8) := by decide
/-- One byte for each case of R78: `40` (byte DDD = 0), `80` and `B8` (word DDD = 0, 7), `8F` (word SSS = 7). -/
theorem test_witness_InvalidRegisterIdsTakeDecodeError :
    ∀ op ∈ [0x40#8, 0x80#8, 0xB8#8, 0x8F#8],
      (imageState [op]).status = .running ∧ memRead (imageState [op]).mem (imageState [op]).pc.toNat = some op ∧
      op ∉ Config.hardware.fixedCodes ∧
      ((op.getLsbD 6 = true ∧ op.toNat / 8 % 8 = 0) ∨
       (op.getLsbD 7 = true ∧ op.getLsbD 6 = false ∧
        (op.toNat / 8 % 8 = 0 ∨ op.toNat / 8 % 8 = 7 ∨ op.toNat % 8 = 7))) := by decide
/-- The boundary bytes `3F` (both modes) and `C0` (strict). -/
theorem test_witness_BytesThatMatchNothingTakeDecodeError :
    ∀ op ∈ [0x3F#8, 0xC0#8],
      (imageState [op]).status = .running ∧ memRead (imageState [op]).mem (imageState [op]).pc.toNat = some op ∧
      op ∉ strictConfig.fixedCodes ∧ (op.toNat < 64 ∨ (strictConfig.highPairMode = .strict ∧ 192 ≤ op.toNat)) := by decide
theorem test_witness_LiteralModeIgnoresBitSevenOfByteMoves :
    Config.hardware.highPairMode = .literal ∧ 192 ≤ (0xC8#8).toNat ∧ 0xC8#8 ∉ Config.hardware.fixedCodes ∧
    0xC8#8 - 128#8 ∉ Config.hardware.fixedCodes := by decide
/-- The boundary byte `BF`, and a fixed code above it. -/
theorem test_witness_HighPairModeMattersOnlyForHighPairBytes :
    memRead (imageState [0xBF#8]).mem (imageState [0xBF#8]).pc.toNat = some 0xBF#8 ∧ (0xBF#8).toNat < 192 ∧
    memRead (imageState [0xE1#8]).mem (imageState [0xE1#8]).pc.toNat = some 0xE1#8 ∧
    0xE1#8 ∈ Config.hardware.fixedCodes := by decide
/-- `pc` at `N`, and an immediate byte at `N`. -/
theorem test_witness_InstructionBytesOutOfRangeTakeAddressError :
    (imageState []).status = .running ∧ (imageState []).mem.size ≤ (imageState []).pc.toNat ∧
    memRead (imageState [0x48#8]).mem (imageState [0x48#8]).pc.toNat = some 0x48#8 ∧
    decodeBytes Config.hardware [0x48#8, 1#8] = .ok (.mvi (.reg .a) 1#8) ∧
    (imageState [0x48#8]).mem.size < (imageState [0x48#8]).pc.toNat + (Instr.mvi (.reg .a) 1#8).width := by decide
theorem test_witness_AStepRunsTheDecodedInstruction :
    (imageState [0xC8#8, 0x33#8]).status = .running ∧
    HoldsAt (imageState [0xC8#8, 0x33#8]).mem (imageState [0xC8#8, 0x33#8]).pc.toNat [0xC8#8, 0x33#8] ∧
    decodeBytes Config.hardware [0xC8#8, 0x33#8] = .ok (.mvi (.reg .a) 0x33#8) := by decide
theorem test_witness_StepsAreDefinedExactlyFromRunning :
    State.reset.status = .running ∧ (haltRun State.reset).status = .halted ∧
    (takeError (.addressError 0#32) State.reset).status = .faulted (.addressError 0#32) := by decide
/-- Both disjuncts: an error at decode and one in execution. -/
theorem test_witness_AnErrorChangesNothingButThePcAndTheStatus :
    stepWith Config.hardware (imageState [0#8]) =
      .next { imageState [0#8] with status := .faulted (.decodeError 0#32 0#8) } ∧
    stepWith Config.hardware { imageState [0x4F#8] with c := 1#8 } =
      .next { imageState [0x4F#8] with c := 1#8, pc := 1#32, status := .faulted (.addressError 0#32) } ∧
    (imageState [0#8]).status = .running := ⟨rfl, rfl, rfl⟩
theorem test_witness_EveryStepKeepsTheImageWellFormed :
    ImageInv { imageState [0x79#8] with a := 5#8 } ∧
    stepWith Config.hardware { imageState [0x79#8] with a := 5#8 } =
      .next { imageState [0x79#8] with a := 5#8, pc := 1#32, mem := { size := 1, cells := [(0, 5#8)] } } :=
  ⟨by decide, rfl⟩
theorem test_witness_EveryStepKeepsTheLengthOfMemory :
    stepWith Config.hardware (imageState [0x79#8]) =
      .next { imageState [0x79#8] with pc := 1#32, mem := { size := 1, cells := [] } } := rfl
theorem test_witness_EveryStepOnlyAppendsToTheOutput :
    stepWith Config.hardware (imageState [2#8]) = .next { imageState [2#8] with pc := 1#32, out := [0#8] } ∧
    fetchInstr Config.hardware (imageState [2#8]) = .ok .out ∧
    fetchInstr Config.hardware (imageState [1#8]) ≠ .ok .out := ⟨rfl, by decide, by decide⟩
/-- An image of 2^32 bytes or more is met without writing it out. -/
theorem test_witness_ConstructionLoadsExactlyTheImage :
    [1#8].length ≤ 2 ^ 32 ∧ 2 ^ 32 < (List.replicate (2 ^ 32 + 1) 1#8).length := by
  rw [List.length_replicate]
  decide
theorem test_witness_MoreFuelKeepsAFinishedRun :
    run Config.hardware [1#8] 1 = .next (.halted []) ∧ RunResult.halted [] ≠ .outOfFuel := ⟨rfl, by decide⟩
theorem test_witness_ARunEndsInExactlyOneResultOrNever : [1#8].length ≤ 2 ^ 32 := by decide
theorem test_witness_ASafeRunDoesNotEndInAnError : SafeRun Config.hardware [1#8] := ⟨[], by simp, 1, rfl⟩
/-- The last `pc` that leaves five bytes. -/
theorem test_witness_APlacedWordIsWhatTheNextStepRuns :
    { State.reset with pc := 0xFFFFFFFB#32 }.pc.toNat + 5 ≤ 2 ^ 32 ∧ decodeTableWord 8 0x61 = some (.mv (.reg .d) (.reg .a)) :=
  by decide

end Sys2Proof.Tests
end

section
/-!
The statements of 00_scope.md: what construction loads, what a run with more fuel gives, and what a step runs where a word
of the opcode table has been placed.
-/

namespace Sys2Proof.Machine

/-! ### Construction -/

/-- The cells of an image read as the image, and fail past its end. -/
theorem memRead_imageCells (image : List Byte) (addr : Nat) :
    memRead { size := image.length, cells := imageCells 0 image } addr = image[addr]? := by
  by_cases h : addr < image.length
  · have hbyte := lookupCell_imageCells 0 addr image
    rw [Nat.zero_add, List.getElem?_eq_getElem h, Option.getD_some] at hbyte
    rw [List.getElem?_eq_getElem h]
    exact memRead_eq_some.mpr ⟨h, hbyte⟩
  · rw [memRead_eq_none.mpr (not_lt.mp h), List.getElem?_eq_none (not_lt.mp h)]

theorem construct_of_too_long {image : List Byte} (h : 2 ^ 32 < image.length) :
    construct image = .refused (.imageTooLong image.length) :=
  if_neg (not_le.mpr h)

/-- Settles O46: construction builds the cells of the image, which are in canonical form and read as the image. -/
theorem constructionLoadsExactlyTheImage : Obligations.ConstructionLoadsExactlyTheImage := fun image =>
  ⟨fun h => ⟨_, construct_eq_next.mpr ⟨h, rfl⟩, imageCells_wf h, rfl, memRead_imageCells image⟩, construct_of_too_long⟩

/-! ### Runs -/

/-- From a terminal status a run gives its result with any fuel. -/
theorem runFrom_of_resultOf {cfg : Config} {s : State} {r : RunResult} (h : resultOf s = some r) (fuel : Nat) :
    runFrom cfg fuel s = .next r := by
  unfold runFrom
  rw [h]

theorem runFrom_zero_of_running {cfg : Config} {s : State} (h : resultOf s = none) :
    runFrom cfg 0 s = .next .outOfFuel := by
  unfold runFrom
  rw [h]

/-- From Running a run with fuel left takes a step. -/
theorem runFrom_succ_of_step {cfg : Config} {s t : State} (h : resultOf s = none) (hs : stepWith cfg s = .next t)
    (fuel : Nat) : runFrom cfg (fuel + 1) s = runFrom cfg fuel t := by
  rw [runFrom, h, hs]

/-- From Running a run with fuel left gives what it gives after one step. -/
theorem runFrom_succ_eq_next {cfg : Config} {s : State} {fuel : Nat} {r : RunResult} (h : resultOf s = none)
    (hr : runFrom cfg (fuel + 1) s = .next r) : ∃ t, stepWith cfg s = .next t ∧ runFrom cfg fuel t = .next r := by
  rw [runFrom, h] at hr
  cases hs : stepWith cfg s with
  | next t => exact ⟨t, rfl, by simpa [hs] using hr⟩
  | fault q => simp [hs] at hr
  | refused q => simp [hs] at hr

/-- A run from a state that gave a result gives the same with more fuel. -/
theorem runFrom_add {cfg : Config} {s : State} {fuel : Nat} {r : RunResult} (hr : runFrom cfg fuel s = .next r)
    (hend : r ≠ .outOfFuel) (more : Nat) : runFrom cfg (fuel + more) s = .next r := by
  induction fuel generalizing s with
  | zero =>
    cases h : resultOf s with
    | none =>
      rw [runFrom_zero_of_running h] at hr
      exact absurd (Host.Outcome.next.inj hr).symm hend
    | some q =>
      rw [runFrom_of_resultOf h] at hr ⊢
      exact hr
  | succ n ih =>
    cases h : resultOf s with
    | none =>
      obtain ⟨t, hs, ht⟩ := runFrom_succ_eq_next h hr
      rw [Nat.succ_add, runFrom_succ_of_step h hs]
      exact ih ht
    | some q =>
      rw [runFrom_of_resultOf h] at hr ⊢
      exact hr

/-- Everything a run that gives a result can be: a run from the constructed state. -/
theorem run_eq_next {cfg : Config} {image : List Byte} {fuel : Nat} {r : RunResult} :
    run cfg image fuel = .next r ↔ ∃ s, construct image = .next s ∧ runFrom cfg fuel s = .next r := by
  unfold run
  cases construct image <;> simp

/-- Settles O47, by induction on the fuel of the run that ended. -/
theorem moreFuelKeepsAFinishedRun : Obligations.MoreFuelKeepsAFinishedRun := by
  intro cfg image fuel more r hr hend
  obtain ⟨s, hs, hrun⟩ := run_eq_next.mp hr
  exact run_eq_next.mpr ⟨s, hs, runFrom_add hrun hend more⟩

/-! ### A placed word -/

/-- Placing bytes keeps every byte below them. -/
theorem memRead_placeBytes_below {m : Memory} {addr other : Nat} {v : Byte} (h : memRead m other = some v)
    (hlt : other < addr) (bytes : List Byte) : memRead (placeBytes m addr bytes) other = some v := by
  induction bytes generalizing m addr with
  | nil => exact h
  | cons w rest ih =>
    obtain ⟨hsize, hv⟩ := memRead_eq_some.mp h
    unfold placeBytes
    split
    · refine ih (memRead_eq_some.mpr ⟨lt_max_of_lt_left hsize, ?_⟩) (hlt.trans (Nat.lt_succ_self _))
      rw [lookupCell_storeCell_of_ne hlt.ne, hv]
    · exact h

/-- Bytes placed within the address space stand where they were placed. -/
theorem holdsAt_placeBytes {m : Memory} {addr : Nat} {bytes : List Byte} (h : addr + bytes.length ≤ 2 ^ 32) :
    HoldsAt (placeBytes m addr bytes) addr bytes := by
  induction bytes generalizing m addr with
  | nil => exact fun k hk => absurd hk (by simp)
  | cons v rest ih =>
    rw [List.length_cons] at h
    intro k hk
    rw [placeBytes, if_pos (by omega)]
    cases k with
    | zero =>
      exact memRead_placeBytes_below
        (memRead_eq_some.mpr ⟨lt_max_of_lt_right (Nat.lt_succ_self _), lookupCell_storeCell_self addr v _⟩)
        (Nat.lt_succ_self _) rest
    | succ k =>
      rw [show addr + (k + 1) = addr + 1 + k by omega]
      exact ih (by omega) k (by simpa using hk)

@[simp] theorem length_tableBytes (nbits w : Nat) : (tableBytes nbits w).length = maxWidth := by
  simp [tableBytes]

theorem decodeTableWord_eq_some {nbits w : Nat} {i : Instr} (h : decodeTableWord nbits w = some i) :
    decodeBytes Config.hardware (tableBytes nbits w) = .ok i := by
  unfold decodeTableWord at h
  cases hd : decodeBytes Config.hardware (tableBytes nbits w) with
  | error q => simp [hd, Except.toOption] at h
  | ok j => simpa [hd, Except.toOption] using h

/-- From Running a step runs the instruction fetched, with `pc` advanced by its width (R81). -/
theorem stepWith_of_fetchInstr {cfg : Config} {s : State} {i : Instr} (hrun : s.status = .running)
    (h : fetchInstr cfg s = .ok i) : stepWith cfg s = exec i (advancePc i.width s) := by
  rw [stepWith_of_running hrun, h]

/-- Settles O50: the five bytes of the word stand at `pc`, so the fetch gives the instruction they decode to. -/
theorem aPlacedWordIsWhatTheNextStepRuns : Obligations.APlacedWordIsWhatTheNextStepRuns := by
  intro s nbits w i hspace hdecode
  have hplaced : HoldsAt (s.withFetchWord nbits w).mem (s.withFetchWord nbits w).pc.toNat (tableBytes nbits w) :=
    holdsAt_placeBytes (by rw [length_tableBytes]; exact hspace)
  exact stepWith_of_fetchInstr rfl (fetchInstr_of_holdsAt hplaced (decodeTableWord_eq_some hdecode))

end Sys2Proof.Machine
end

section
/-!
The statements of 10_state.md: what a write of each part of the state leaves unchanged, the one part of the state that each
instruction can write, from which steps are defined, and the reset state.
-/

namespace Sys2Proof.Machine

/-! ### Writes and their frames -/

theorem sameBut_setByteReg (r : ByteReg) (v : Byte) (s : State) : SameBut [r] [] [] s (setByteReg r v s) :=
  ⟨fun _ hq => byteReg_setByteReg_of_ne s v (List.ne_of_not_mem_cons hq), fun q _ => wordReg_setByteReg s q r v,
    by simp, by simp, by simp, by simp⟩

theorem sameBut_setWordReg (r : WordReg) (v : Word) (s : State) : SameBut [] [r] [] s (setWordReg r v s) :=
  ⟨fun q _ => byteReg_setWordReg s q r v, fun _ hq => wordReg_setWordReg_of_ne s v (List.ne_of_not_mem_cons hq),
    by simp, by simp, by simp, by simp⟩

/-- Settles O24, from the frames of the two register writes. -/
theorem registersKeepWhatIsWrittenAndDoNotAlias : Obligations.RegistersKeepWhatIsWrittenAndDoNotAlias :=
  ⟨fun r v s => ⟨byteReg_setByteReg_self s r v, sameBut_setByteReg r v s⟩,
    fun r v s => ⟨wordReg_setWordReg_self s r v, sameBut_setWordReg r v s⟩⟩

theorem size_of_memWrite {m n : Memory} {addr : Nat} {v : Byte} (h : memWrite m addr v = some n) : n.size = m.size := by
  obtain ⟨-, rfl⟩ := memWrite_eq_some.mp h
  rfl

/-- A read gives the byte just written. -/
theorem memRead_of_memWrite_self {m n : Memory} {addr : Nat} {v : Byte} (h : memWrite m addr v = some n) :
    memRead n addr = some v := by
  obtain ⟨hlt, rfl⟩ := memWrite_eq_some.mp h
  exact memRead_eq_some.mpr ⟨hlt, lookupCell_storeCell_self addr v m.cells⟩

/-- A write leaves what every other address reads as. -/
theorem memRead_of_memWrite_of_ne {m n : Memory} {addr other : Nat} {v : Byte} (h : memWrite m addr v = some n)
    (hne : other ≠ addr) : memRead n other = memRead m other := by
  obtain ⟨-, rfl⟩ := memWrite_eq_some.mp h
  simp only [memRead, lookupCell_storeCell_of_ne hne]

theorem sameBut_setMem_of_memWrite {s : State} {m : Memory} {addr : Nat} {v : Byte}
    (h : memWrite s.mem addr v = some m) : SameBut [] [] [addr] s (setMem m s) :=
  ⟨fun q _ => byteReg_setMem s q m, fun q _ => wordReg_setMem s q m, size_of_memWrite h,
    fun _ hother => memRead_of_memWrite_of_ne h (List.ne_of_not_mem_cons hother), rfl, rfl⟩

/-- A successful write of `ptr_c` is a write of the image at the indirect address. -/
theorem writeByteId_ptrC_eq_some {v : Byte} {s t : State} :
    writeByteId .ptrC v s = some t ↔ ∃ m, memWrite s.mem (indirectAddress s).toNat v = some m ∧ setMem m s = t :=
  Option.map_eq_some_iff

/-- Settles O27: a write of `ptr_c` is a write of the image at the wrapped sum. -/
theorem ptrCIsTheByteAtPtrPlusCModulo32Bits : Obligations.PtrCIsTheByteAtPtrPlusCModulo32Bits := by
  intro s
  rw [← toNat_indirectAddress]
  refine ⟨rfl, rfl, fun v t hw => ?_⟩
  obtain ⟨m, hm, rfl⟩ := writeByteId_ptrC_eq_some.mp hw
  exact ⟨memRead_of_memWrite_self hm, sameBut_setMem_of_memWrite hm⟩

/-! ### What an instruction can write (R23) -/

/-- The instructions that can write the byte register: the moves into it, and for `a` and `f` the ALU. -/
def WritesByteReg (i : Instr) (r : ByteReg) : Prop :=
  (∃ src, i = .mv (.reg r) src) ∨ (∃ imm, i = .mvi (.reg r) imm) ∨
  (r = .a ∧ (i = .add ∨ i = .sub ∨ i = .xor)) ∨ (r = .f ∧ i = .cmp)

/-- The instructions that can write the word register: the moves into it, for `ptr` APTR, for `pc` the branches. -/
def WritesWordReg (i : Instr) (r : WordReg) : Prop :=
  (∃ src, i = .mv32 r src) ∨ (∃ imm, i = .mvi32 r imm) ∨
  (r = .ptr ∧ ∃ imm, i = .aptr imm) ∨ (r = .pc ∧ ∃ target, i = .jez target ∨ i = .jnz target)

/-- The instructions with `ptr_c` as destination. -/
def StoresThroughPtrC (i : Instr) : Prop := (∃ src, i = .mv .ptrC src) ∨ ∃ imm, i = .mvi .ptrC imm

/-- The instructions with a `ptr_c` operand. -/
def UsesPtrC (i : Instr) : Prop := (∃ src, i = .mv .ptrC src) ∨ (∃ dst, i = .mv dst .ptrC) ∨ ∃ imm, i = .mvi .ptrC imm

/-- The next states an instruction can have: each is one write of one part of the state, by an instruction that may write
that part. -/
inductive Effect (i : Instr) (s : State) : State → Prop where
  | byteWrite (r : ByteReg) (v : Byte) (writer : WritesByteReg i r) : Effect i s (setByteReg r v s)
  | wordWrite (r : WordReg) (v : Word) (writer : WritesWordReg i r) : Effect i s (setWordReg r v s)
  | store (m : Memory) (v : Byte) (writer : StoresThroughPtrC i)
      (write : memWrite s.mem (indirectAddress s).toNat v = some m) : Effect i s (setMem m s)
  | output (writer : i = .out) : Effect i s (emit s.a s)
  | halt (writer : i = .halt) : Effect i s (haltRun s)
  | addressError (writer : UsesPtrC i) (outOfRange : s.mem.size ≤ (indirectAddress s).toNat) :
      Effect i s (takeError (.addressError (opcodeAddress i.width s)) s)

/-- A branch writes `pc`, with the value it has where the branch is not taken. -/
theorem jumpIf_eq_setWordReg (taken : Bool) (target : Word) (s : State) :
    jumpIf taken target s = .next (setWordReg .pc (if taken then target else s.pc) s) := by
  cases taken <;> rfl

/-- Writing a byte operand writes that register or stores through `ptr_c`. -/
theorem effect_of_writeByteId {i : Instr} {dst : ByteId} {v : Byte} {s t : State} (h : writeByteId dst v s = some t)
    (hreg : ∀ r, dst = .reg r → WritesByteReg i r) (hptr : dst = .ptrC → StoresThroughPtrC i) : Effect i s t := by
  rcases writeByteId_eq_some.mp h with ⟨r, hdst, rfl⟩ | ⟨hdst, m, hm, rfl⟩
  · exact .byteWrite r v (hreg r hdst)
  · exact .store m v (hptr hdst) hm

theorem effect_of_execMv {dst src : ByteId} {s t : State} (h : execMv dst src s = .next t) :
    Effect (.mv dst src) s t := by
  rcases execMv_eq_next h with ⟨v, -, hw⟩ | ⟨hptr, hrange, rfl⟩
  · exact effect_of_writeByteId hw (fun r hdst => .inl ⟨src, by rw [hdst]⟩) (fun hdst => .inl ⟨src, by rw [hdst]⟩)
  · refine .addressError ?_ hrange
    rcases hptr with rfl | rfl
    · exact .inr (.inl ⟨dst, rfl⟩)
    · exact .inl ⟨src, rfl⟩

theorem effect_of_execMvi {dst : ByteId} {imm : Byte} {s t : State} (h : execMvi dst imm s = .next t) :
    Effect (.mvi dst imm) s t := by
  rcases execMvi_eq_next h with hw | ⟨rfl, hrange, rfl⟩
  · exact effect_of_writeByteId hw (fun r hdst => .inr (.inl ⟨imm, by rw [hdst]⟩))
      (fun hdst => .inr ⟨imm, by rw [hdst]⟩)
  · exact .addressError (.inr (.inr ⟨imm, rfl⟩)) hrange

/-- Everything an instruction can do. -/
theorem effect_of_exec {i : Instr} {s t : State} (h : exec i s = .next t) : Effect i s t := by
  cases i with
  | mv dst src => exact effect_of_execMv h
  | mvi dst imm => exact effect_of_execMvi h
  | jez target | jnz target =>
    obtain rfl := Host.Outcome.next.inj ((jumpIf_eq_setWordReg _ _ _).symm.trans h)
    exact .wordWrite .pc _ (by simp [WritesWordReg])
  | add | sub | xor =>
    obtain rfl := Host.Outcome.next.inj h
    exact .byteWrite .a _ (by simp [WritesByteReg])
  | cmp =>
    obtain rfl := Host.Outcome.next.inj h
    exact .byteWrite .f _ (by simp [WritesByteReg])
  | aptr imm =>
    obtain rfl := Host.Outcome.next.inj h
    exact .wordWrite .ptr _ (by simp [WritesWordReg])
  | mvi32 dst imm | mv32 dst src =>
    obtain rfl := Host.Outcome.next.inj h
    exact .wordWrite dst _ (by simp [WritesWordReg])
  | out =>
    obtain rfl := Host.Outcome.next.inj h
    exact .output rfl
  | halt =>
    obtain rfl := Host.Outcome.next.inj h
    exact .halt rfl

section
variable {i : Instr} {s t : State}

theorem Effect.writesByteReg (h : Effect i s t) {r : ByteReg} (hne : byteReg r t ≠ byteReg r s) :
    WritesByteReg i r := by
  cases h with
  | byteWrite q v writer =>
    have hq : r = q := by_contra fun hq => hne (byteReg_setByteReg_of_ne s v hq)
    exact hq ▸ writer
  | wordWrite | store | output | halt | addressError => simp at hne

theorem Effect.writesWordReg (h : Effect i s t) {r : WordReg} (hne : wordReg r t ≠ wordReg r s) :
    WritesWordReg i r := by
  cases h with
  | wordWrite q v writer =>
    have hq : r = q := by_contra fun hq => hne (wordReg_setWordReg_of_ne s v hq)
    exact hq ▸ writer
  | byteWrite | store | output | halt | addressError => simp at hne

theorem Effect.storesThroughPtrC (h : Effect i s t) (hne : t.mem ≠ s.mem) : StoresThroughPtrC i := by
  cases h with
  | store m v writer => exact writer
  | byteWrite | wordWrite | output | halt | addressError => simp at hne

theorem Effect.eq_out (h : Effect i s t) (hne : t.out ≠ s.out) : i = .out := by
  cases h with
  | output writer => exact writer
  | byteWrite | wordWrite | store | halt | addressError => simp at hne

/-- The status changes by HALT or by an AddressError of a `ptr_c` operand. -/
theorem Effect.eq_halt_or_usesPtrC (h : Effect i s t) (hne : t.status ≠ s.status) :
    i = .halt ∨ (t.status = .faulted (.addressError (opcodeAddress i.width s)) ∧ UsesPtrC i) := by
  cases h with
  | halt writer => exact .inl writer
  | addressError writer => exact .inr ⟨rfl, writer⟩
  | byteWrite | wordWrite | store | output => simp at hne

end

/-- Settles O22: a part of the state that changed is the one part its instruction writes. -/
theorem eachPartOfTheStateHasOnlyItsNamedWriters : Obligations.EachPartOfTheStateHasOnlyItsNamedWriters := by
  intro i s t h
  have heffect := effect_of_exec h
  exact ⟨fun _ => heffect.writesByteReg, fun _ => heffect.writesWordReg, heffect.storesThroughPtrC, heffect.eq_out,
    heffect.eq_halt_or_usesPtrC⟩

/-! ### Steps -/

theorem stepWith_of_halted {s : State} (h : s.status = .halted) (cfg : Config) :
    stepWith cfg s = .fault .stepAfterHalt := by
  simp [stepWith, stopReason, h]

theorem stepWith_of_faulted {s : State} {record : ErrorRecord} (h : s.status = .faulted record) (cfg : Config) :
    stepWith cfg s = .fault (.stepAfterError record) := by
  simp [stepWith, stopReason, h]

/-- From Running a step that cannot decode takes the error (R81). -/
theorem stepWith_of_fetch_error {cfg : Config} {s : State} {r : DecodeReject} (hrun : s.status = .running)
    (h : fetchInstr cfg s = .error r) : stepWith cfg s = .next (takeError (rejectRecord s.pc r) s) := by
  rw [stepWith_of_running hrun, h]

/-- From Running a step always gives a next state: the taken error, or what the instruction answers. -/
theorem stepWith_answers_next {s : State} (hrun : s.status = .running) (cfg : Config) :
    ∃ t, stepWith cfg s = .next t := by
  cases h : fetchInstr cfg s with
  | error r => exact ⟨_, stepWith_of_fetch_error hrun h⟩
  | ok i =>
    rw [stepWith_of_fetchInstr hrun h]
    exact exec_answers_next i _

/-- Settles O40, by the three run statuses. -/
theorem stepsAreDefinedExactlyFromRunning : Obligations.StepsAreDefinedExactlyFromRunning := fun cfg _ =>
  ⟨fun h => stepWith_answers_next h cfg, fun h => stepWith_of_halted h cfg, fun _ h => stepWith_of_faulted h cfg⟩

/-- Settles O44: an error leaves the output, OUT emits `a`, and no other instruction writes the output. -/
theorem everyStepOnlyAppendsToTheOutput : Obligations.EveryStepOnlyAppendsToTheOutput := by
  intro cfg s t h
  obtain ⟨-, ⟨r, hfetch, rfl⟩ | ⟨i, hfetch, hexec⟩⟩ := stepWith_eq_next h <;> rw [hfetch]
  · exact ⟨fun hout => by simp at hout, fun _ => rfl⟩
  · refine ⟨fun hout => ?_, fun hout => ?_⟩
    · obtain rfl := Except.ok.inj hout
      obtain rfl := Host.Outcome.next.inj hexec
      rfl
    · exact by_contra fun hne => hout (congrArg Except.ok ((effect_of_exec hexec).eq_out hne))

/-! ### Reset -/

/-- Settles O45, register by register. -/
theorem resetLeavesEveryRegisterZero : Obligations.ResetLeavesEveryRegisterZero := by
  refine ⟨fun r => ?_, fun r => ?_, rfl, rfl, reset_mem_wf, construct_eq_next.mpr ⟨Nat.zero_le _, rfl⟩⟩
  · cases r <;> rfl
  · cases r <;> rfl

end Sys2Proof.Machine
end

section
/-!
The statements of 20_memory.md: what one access of the image does, that the canonical form is determined by what it reads
as, what a step can do to the image, which instructions reach it, and the byte order of an immediate.
-/

namespace Sys2Proof.Machine

/-! ### Reads and writes of the image -/

theorem memWrite_eq_none {m : Memory} {addr : Nat} {v : Byte} : memWrite m addr v = none ↔ m.size ≤ addr := by
  simp [memWrite]

/-- Settles O25: below `N` the write replaces the cells, and its reads are those of the cells stored. -/
theorem aMemoryWriteChangesExactlyOneByte : Obligations.AMemoryWriteChangesExactlyOneByte := by
  intro m addr v
  refine ⟨fun hpast => ⟨memRead_eq_none.mpr hpast, memWrite_eq_none.mpr hpast⟩, fun hlt => ?_⟩
  have hw : memWrite m addr v = some { m with cells := storeCell addr v m.cells } := memWrite_eq_some.mpr ⟨hlt, rfl⟩
  exact ⟨⟨_, memRead_eq_some.mpr ⟨hlt, rfl⟩⟩, _, hw, size_of_memWrite hw, memRead_of_memWrite_self hw,
    fun _ hne => memRead_of_memWrite_of_ne hw hne⟩

/-- Settles O28: the first byte fetched is the one written, and the write reaches no byte after it. -/
theorem theNextFetchSeesAWrittenByte : Obligations.TheNextFetchSeesAWrittenByte := by
  intro m n addr v count hw
  have hrest : fetchBytes n (addr + 1) count = fetchBytes m (addr + 1) count :=
    fetchBytes_of_reads fun k hk => memRead_of_memWrite_of_ne hw (Nat.ne_of_gt hk)
  rw [fetchBytes_succ_of_read (memRead_of_memWrite_self hw), hrest]

/-! ### The canonical form is determined by its reads -/

/-- With rising addresses a listed byte is the one its address reads as. -/
theorem lookupCell_of_mem {cells : List Host.Cell} {x : Host.Cell} (h : cells.Pairwise fun x y => x.1 < y.1)
    (hx : x ∈ cells) : lookupCell cells x.1 = x.2 := by
  induction h with
  | nil => simp at hx
  | @cons y rest hy _ ih =>
    rcases List.mem_cons.mp hx with rfl | hx
    · simp [lookupCell]
    · rw [lookupCell, if_neg (hy x hx).ne, ih hx]

/-- An address that does not read as an unlisted one is listed. -/
theorem mem_of_lookupCell {cells : List Host.Cell} {addr : Nat} (h : lookupCell cells addr ≠ unlistedByte) :
    (addr, lookupCell cells addr) ∈ cells := by
  induction cells with
  | nil => exact absurd rfl h
  | cons y rest ih =>
    unfold lookupCell at h ⊢
    split at h
    · rename_i hy
      rw [if_pos hy, ← hy]
      exact List.mem_cons_self
    · rename_i hy
      rw [if_neg hy]
      exact List.mem_cons_of_mem _ (ih h)

/-- The cells of a canonical image list exactly the bytes that do not read as an unlisted one. -/
theorem mem_cells_iff_memRead {m : Memory} (h : m.wf) {x : Host.Cell} :
    x ∈ m.cells ↔ memRead m x.1 = some x.2 ∧ x.2 ≠ unlistedByte := by
  obtain ⟨hpair, hcells, -⟩ := h
  rw [memRead_eq_some]
  constructor
  · intro hx
    obtain ⟨hne, hlt⟩ := hcells x hx
    exact ⟨⟨hlt, lookupCell_of_mem hpair hx⟩, hne⟩
  · rintro ⟨⟨-, hv⟩, hne⟩
    have hmem := mem_of_lookupCell (hv.trans_ne hne)
    rwa [hv] at hmem

/-- Cells with rising addresses are determined by their members. -/
theorem eq_of_mem_iff_of_pairwise {cells other : List Host.Cell} (hcells : cells.Pairwise fun x y => x.1 < y.1)
    (hother : other.Pairwise fun x y => x.1 < y.1) (h : ∀ x, x ∈ cells ↔ x ∈ other) : cells = other := by
  have hnodup : ∀ {l : List Host.Cell}, (l.Pairwise fun x y => x.1 < y.1) → l.Nodup := fun hl =>
    hl.imp fun hlt heq => hlt.ne (congrArg Prod.fst heq)
  have hperm : cells.Perm other := (List.perm_ext_iff_of_nodup (hnodup hcells) (hnodup hother)).mpr h
  exact hperm.eq_of_pairwise (fun _ _ _ _ hlt hgt => absurd hgt hlt.not_gt) hcells hother

/-- `N` is determined by which reads fail. -/
theorem size_eq_of_readsSame {m n : Memory} (h : ReadsSame m n) : m.size = n.size :=
  eq_of_forall_ge_iff fun addr => by rw [← memRead_eq_none, h addr, memRead_eq_none]

/-- Settles O26: the reads determine `N` and the members of the cells, and the rising addresses their order. -/
theorem wellFormedImagesThatReadTheSameAreEqual : Obligations.WellFormedImagesThatReadTheSameAreEqual := by
  intro m n hm hn hsame
  have hcells : m.cells = n.cells := eq_of_mem_iff_of_pairwise hm.1 hn.1 fun x => by
    rw [mem_cells_iff_memRead hm, mem_cells_iff_memRead hn, hsame x.1]
  have hsize := size_eq_of_readsSame hsame
  cases m
  cases n
  subst hcells hsize
  rfl

/-! ### What a step can do to the image -/

/-- A step leaves the image or makes one write of it. -/
theorem stepWith_mem {cfg : Config} {s t : State} (h : stepWith cfg s = .next t) :
    t.mem = s.mem ∨ ∃ addr v, memWrite s.mem addr v = some t.mem := by
  obtain ⟨-, ⟨r, -, rfl⟩ | ⟨i, -, hexec⟩⟩ := stepWith_eq_next h
  · exact .inl rfl
  · rcases exec_mem hexec with hmem | ⟨-, v, hw⟩
    · exact .inl hmem
    · exact .inr ⟨_, v, hw⟩

/-- Settles O42: the one write a step can make keeps the canonical form. -/
theorem everyStepKeepsTheImageWellFormed : Obligations.EveryStepKeepsTheImageWellFormed := by
  intro cfg s t hinv h
  rcases stepWith_mem h with hmem | ⟨addr, v, hw⟩
  · rw [ImageInv, hmem]
    exact hinv
  · exact memWrite_wf hinv hw

/-- Settles O43: the one write a step can make keeps the length. -/
theorem everyStepKeepsTheLengthOfMemory : Obligations.EveryStepKeepsTheLengthOfMemory := by
  intro cfg s t h
  rcases stepWith_mem h with hmem | ⟨addr, v, hw⟩
  · rw [hmem]
  · exact size_of_memWrite hw

/-! ### Data accesses of the instructions -/

/-- MV with a `ptr_c` operand at or past `N` takes AddressError, whether the source or the destination is out of range. -/
theorem execMv_of_out_of_range {dst src : ByteId} {s : State} (hptr : dst = .ptrC ∨ src = .ptrC)
    (hrange : s.mem.size ≤ (indirectAddress s).toNat) :
    execMv dst src s = .next (takeError (.addressError (opcodeAddress 1 s)) s) := by
  have hfails : ((readByteId src s).bind fun v => writeByteId dst v s) = none := by
    rcases hptr with rfl | rfl
    · exact Option.bind_eq_none_iff.mpr fun v _ => writeByteId_eq_none.mpr ⟨rfl, hrange⟩
    · rw [readByteId_eq_none.mpr ⟨rfl, hrange⟩, Option.bind_none]
  exact congrArg (orAddressError (.mv dst src) s) hfails

theorem execMvi_of_out_of_range {imm : Byte} {s : State} (hrange : s.mem.size ≤ (indirectAddress s).toNat) :
    execMvi .ptrC imm s = .next (takeError (.addressError (opcodeAddress 2 s)) s) :=
  congrArg (orAddressError (.mvi .ptrC imm) s) (writeByteId_eq_none.mpr ⟨rfl, hrange⟩)

/-- Settles O14, from what MV and MVI do where the address of `ptr_c` is out of range. -/
theorem movesThroughPtrCOutOfRangeTakeAddressError : Obligations.MovesThroughPtrCOutOfRangeTakeAddressError := by
  intro s hrange
  rw [← toNat_indirectAddress] at hrange
  exact ⟨fun _ _ hptr => execMv_of_out_of_range hptr hrange, fun _ => execMvi_of_out_of_range hrange⟩

/-- Over another image an instruction without a `ptr_c` operand does the same to the rest of the state. -/
theorem exec_setMem {i : Instr} {s t : State} (huses : ¬ UsesPtrC i) (h : exec i s = .next t) (m : Memory) :
    exec i (setMem m s) = .next (setMem m t) := by
  cases i with
  | mv dst src =>
    rcases dst with r | _
    · rcases src with q | _
      · obtain rfl := Host.Outcome.next.inj h
        rw [setMem_setByteReg, ← byteReg_setMem s q m]
        rfl
      · exact absurd (.inr (.inl ⟨_, rfl⟩)) huses
    · exact absurd (.inl ⟨_, rfl⟩) huses
  | mvi dst imm =>
    rcases dst with r | _
    · obtain rfl := Host.Outcome.next.inj h
      rw [setMem_setByteReg]
      rfl
    · exact absurd (.inr (.inr ⟨_, rfl⟩)) huses
  | jez target | jnz target =>
    obtain rfl := Host.Outcome.next.inj ((jumpIf_eq_setWordReg _ _ _).symm.trans h)
    exact jumpIf_eq_setWordReg _ _ _
  | mv32 dst src =>
    obtain rfl := Host.Outcome.next.inj h
    rw [setMem_setWordReg, ← wordReg_setMem s src m]
    rfl
  | mvi32 dst imm =>
    obtain rfl := Host.Outcome.next.inj h
    rw [setMem_setWordReg]
    rfl
  | add | sub | xor | cmp | aptr imm | out | halt =>
    obtain rfl := Host.Outcome.next.inj h
    rfl

/-- Settles O23: only a store through `ptr_c` writes the image, and no other operand reads it. -/
theorem onlyPtrCOperandsReachDataMemory : Obligations.OnlyPtrCOperandsReachDataMemory := by
  intro i s t m hdst hsrc hmvi h
  have huses : ¬ UsesPtrC i := by
    rintro (⟨src, hi⟩ | ⟨dst, hi⟩ | ⟨imm, hi⟩)
    · exact hdst src hi
    · exact hsrc dst hi
    · exact hmvi imm hi
  refine ⟨by_contra fun hne => ?_, exec_setMem huses h m⟩
  rcases (effect_of_exec h).storesThroughPtrC hne with hstore | hstore
  · exact huses (.inl hstore)
  · exact huses (.inr (.inr hstore))

/-! ### Immediates of four bytes -/

/-- JEZ jumps where `f` is zero. -/
theorem execJez_of_flag_zero {s : State} (h : s.f = 0x00#8) (target : Word) :
    execJez target s = .next (setWordReg .pc target s) := by
  simp [execJez, jumpIf, flagSet, h]

/-- JNZ jumps where `f` is not zero. -/
theorem execJnz_of_flag_ne_zero {s : State} (h : s.f ≠ 0x00#8) (target : Word) :
    execJnz target s = .next (setWordReg .pc target s) := by
  simp [execJnz, jumpIf, flagSet, h]

/-- Settles O32: the word is `le32` of the four bytes. -/
theorem fourByteImmediatesAreLittleEndian : Obligations.FourByteImmediatesAreLittleEndian := by
  intro cfg b0 b1 b2 b3 rest hcfg
  obtain ⟨-, -, -, -, -, -, -, hjez, hjnz⟩ := decodeOpcode_fixed hcfg
  exact ⟨le32 b0 b1 b2 b3, toNat_le32 b0 b1 b2 b3, decodeBytes_of_opcode hjez _, decodeBytes_of_opcode hjnz _,
    fun _ _ hop => decodeBytes_of_opcode hop _, fun _ hf => execJez_of_flag_zero hf _,
    fun _ hf => execJnz_of_flag_ne_zero hf _, fun _ _ => rfl⟩

end Sys2Proof.Machine
end

section
/-!
The statements of 30_encoding.md: decoding and encoding agree in both directions, which opcode bytes take DecodeError, what
`HIGH_PAIR_MODE` changes, and what a step makes of the bytes at `pc`.
-/

namespace Sys2Proof

/-! ### The three fields of an opcode byte (R72) -/

section
variable (hi : BitVec 2) (ddd sss : BitVec 3)

theorem toNat_fields : BitVec.toNat (w := 8) (hi ++ ddd ++ sss) = 64 * hi.toNat + 8 * ddd.toNat + sss.toNat := by
  rw [BitVec.toNat_append, BitVec.toNat_append, ← Nat.shiftLeft_add_eq_or_of_lt sss.isLt,
    ← Nat.shiftLeft_add_eq_or_of_lt ddd.isLt, Nat.shiftLeft_eq, Nat.shiftLeft_eq]
  omega

@[simp] theorem highPair_fields : BitVec.extractLsb' (n := 8) 6 2 (hi ++ ddd ++ sss) = hi := by
  have hh := hi.isLt
  have hd := ddd.isLt
  have hs := sss.isLt
  apply BitVec.eq_of_toNat_eq
  rw [BitVec.extractLsb'_toNat, toNat_fields, Nat.shiftRight_eq_div_pow]
  omega

@[simp] theorem fieldDDD_fields : fieldDDD (hi ++ ddd ++ sss) = ddd := by
  have hd := ddd.isLt
  have hs := sss.isLt
  apply BitVec.eq_of_toNat_eq
  rw [fieldDDD, BitVec.extractLsb'_toNat, toNat_fields, Nat.shiftRight_eq_div_pow]
  omega

@[simp] theorem fieldSSS_fields : fieldSSS (hi ++ ddd ++ sss) = sss := by
  have hs := sss.isLt
  apply BitVec.eq_of_toNat_eq
  rw [fieldSSS, BitVec.extractLsb'_toNat, toNat_fields, Nat.shiftRight_eq_div_pow]
  omega

theorem toNat_fields_ddd : BitVec.toNat (w := 8) (hi ++ ddd ++ sss) / 8 % 8 = ddd.toNat := by
  have hd := ddd.isLt
  have hs := sss.isLt
  rw [toNat_fields]
  omega

theorem toNat_fields_sss : BitVec.toNat (w := 8) (hi ++ ddd ++ sss) % 8 = sss.toNat := by
  have hs := sss.isLt
  rw [toNat_fields]
  omega

theorem getLsbD_six_fields : BitVec.getLsbD (w := 8) (hi ++ ddd ++ sss) 6 = hi.getLsbD 0 :=
  BitVec.getLsbD_append.trans BitVec.getLsbD_append

end

/-- A byte is its three fields. -/
theorem eq_fields (op : Byte) : op = op.extractLsb' 6 2 ++ fieldDDD op ++ fieldSSS op := by
  apply BitVec.eq_of_toNat_eq
  rw [toNat_fields, fieldDDD, fieldSSS]
  simp only [BitVec.extractLsb'_toNat, Nat.shiftRight_eq_div_pow]
  omega

theorem exists_eq_fields (op : Byte) : ∃ (hi : BitVec 2) (ddd sss : BitVec 3), op = hi ++ ddd ++ sss :=
  ⟨_, _, _, eq_fields op⟩

/-- A masked byte is compared field by field. -/
theorem fields_and_eq_iff {hi : BitVec 2} {ddd sss : BitVec 3} (mask v : Byte) :
    (hi ++ ddd ++ sss) &&& mask = v ↔
      hi &&& mask.extractLsb' 6 2 = v.extractLsb' 6 2 ∧ ddd &&& fieldDDD mask = fieldDDD v ∧
      sss &&& fieldSSS mask = fieldSSS v := by
  have hand : (hi ++ ddd ++ sss) &&& mask =
      (hi &&& mask.extractLsb' 6 2) ++ (ddd &&& fieldDDD mask) ++ (sss &&& fieldSSS mask) := by
    rw [← BitVec.and_append, ← BitVec.and_append, ← eq_fields]
  rw [hand]
  constructor
  · rintro rfl
    simp
  · rintro ⟨hh, hd, hs⟩
    rw [hh, hd, hs, ← eq_fields]

/-! ### Register ids -/

theorem byteIdOf_eq_some {id : BitVec 3} {x : ByteId} : byteIdOf id = some x ↔ id = byteIdCode x :=
  ⟨fun h => (byteIdCode_of_byteIdOf h).symm, fun h => h ▸ byteIdOf_byteIdCode x⟩

theorem wordRegOf_eq_some {id : BitVec 3} {r : WordReg} : wordRegOf id = some r ↔ id = wordRegCode r :=
  ⟨fun h => (wordRegCode_of_wordRegOf h).symm, fun h => h ▸ wordRegOf_wordRegCode r⟩

theorem byteIdCode_ne_zero (x : ByteId) : byteIdCode x ≠ 0b000#3 := by
  rcases x with r | _
  · cases r <;> decide
  · decide

theorem wordRegCode_ne_zero (r : WordReg) : wordRegCode r ≠ 0b000#3 := by cases r <;> decide

theorem wordRegCode_ne_seven (r : WordReg) : wordRegCode r ≠ 0b111#3 := by cases r <;> decide

/-! ### The four families -/

/-- The fields with which an opcode byte decodes to a move (R76); no byte of a family decodes to another opcode. -/
def Opcode.HasFields (hi : BitVec 2) (ddd sss : BitVec 3) : Opcode → Prop
  | .mvi dst => (hi = 0b01#2 ∨ hi = 0b11#2) ∧ ddd = byteIdCode dst ∧ sss = 0b000#3
  | .mv dst src => (hi = 0b01#2 ∨ hi = 0b11#2) ∧ ddd = byteIdCode dst ∧ sss = byteIdCode src
  | .mvi32 dst => hi = 0b10#2 ∧ ddd = wordRegCode dst ∧ sss = 0b000#3
  | .mv32 dst src => hi = 0b10#2 ∧ ddd = wordRegCode dst ∧ sss = wordRegCode src
  | _ => False

/-- The register ids of a move are in range (R78). -/
theorem Opcode.HasFields.validIds {o : Opcode} {hi : BitVec 2} {ddd sss : BitVec 3} (h : o.HasFields hi ddd sss) :
    ddd ≠ 0b000#3 ∧ ((hi = 0b01#2 ∨ hi = 0b11#2) ∨ (hi = 0b10#2 ∧ ddd ≠ 0b111#3 ∧ sss ≠ 0b111#3)) := by
  cases o with
  | mvi | mv =>
    obtain ⟨hhi, rfl, -⟩ := h
    exact ⟨byteIdCode_ne_zero _, .inl hhi⟩
  | mvi32 dst =>
    obtain ⟨hhi, rfl, rfl⟩ := h
    exact ⟨wordRegCode_ne_zero dst, .inr ⟨hhi, wordRegCode_ne_seven dst, by decide⟩⟩
  | mv32 dst src =>
    obtain ⟨hhi, rfl, rfl⟩ := h
    exact ⟨wordRegCode_ne_zero dst, .inr ⟨hhi, wordRegCode_ne_seven dst, wordRegCode_ne_seven src⟩⟩
  | _ => exact h.elim

theorem decodeMvi_eq_ok {op : Byte} {o : Opcode} :
    decodeMvi op = .ok o ↔ ∃ dst, o = .mvi dst ∧ fieldDDD op = byteIdCode dst := by
  simp only [decodeMvi, ← byteIdOf_eq_some]
  cases byteIdOf (fieldDDD op) <;> simp [eq_comm]

theorem decodeMv_eq_ok {op : Byte} {o : Opcode} :
    decodeMv op = .ok o ↔
      ∃ dst src, o = .mv dst src ∧ fieldDDD op = byteIdCode dst ∧ fieldSSS op = byteIdCode src := by
  simp only [decodeMv, ← byteIdOf_eq_some]
  cases byteIdOf (fieldDDD op) <;> cases byteIdOf (fieldSSS op) <;> simp [eq_comm]

theorem decodeMvi32_eq_ok {op : Byte} {o : Opcode} :
    decodeMvi32 op = .ok o ↔ ∃ dst, o = .mvi32 dst ∧ fieldDDD op = wordRegCode dst := by
  simp only [decodeMvi32, ← wordRegOf_eq_some]
  cases wordRegOf (fieldDDD op) <;> simp [eq_comm]

theorem decodeMv32_eq_ok {op : Byte} {o : Opcode} :
    decodeMv32 op = .ok o ↔
      ∃ dst src, o = .mv32 dst src ∧ fieldDDD op = wordRegCode dst ∧ fieldSSS op = wordRegCode src := by
  simp only [decodeMv32, ← wordRegOf_eq_some]
  cases wordRegOf (fieldDDD op) <;> cases wordRegOf (fieldSSS op) <;> simp [eq_comm]

/-- The masks of R76, read field by field. -/
theorem decodeFamily_fields (hi : BitVec 2) (ddd sss : BitVec 3) :
    decodeFamily (hi ++ ddd ++ sss) =
      if hi = 0b01#2 ∨ hi = 0b11#2 then
        if sss = 0b000#3 then decodeMvi (hi ++ ddd ++ sss) else decodeMv (hi ++ ddd ++ sss)
      else if hi = 0b10#2 then
        if sss = 0b000#3 then decodeMvi32 (hi ++ ddd ++ sss) else decodeMv32 (hi ++ ddd ++ sss)
      else .error (.noMatch (hi ++ ddd ++ sss)) := by
  have hsss : sss &&& 0b111#3 = sss := BitVec.and_allOnes
  have hhi : ∀ x : BitVec 2, x = 0b00#2 ∨ x = 0b01#2 ∨ x = 0b10#2 ∨ x = 0b11#2 := by decide
  simp only [decodeFamily, fields_and_eq_iff, fieldDDD, fieldSSS]
  obtain rfl | rfl | rfl | rfl := hhi hi <;> simp [hsss]

/-- A byte of a family decodes exactly to the opcode that has its fields. -/
theorem decodeFamily_fields_eq_ok {hi : BitVec 2} {ddd sss : BitVec 3} {o : Opcode} :
    decodeFamily (hi ++ ddd ++ sss) = .ok o ↔ o.HasFields hi ddd sss := by
  rw [decodeFamily_fields]
  split_ifs with hbyte hsss hword hsss
  · have hword : hi ≠ 0b10#2 := by rcases hbyte with rfl | rfl <;> decide
    rw [decodeMvi_eq_ok]
    cases o <;> simp [Opcode.HasFields, hbyte, hword, hsss, (byteIdCode_ne_zero _).symm]
  · have hword : hi ≠ 0b10#2 := by rcases hbyte with rfl | rfl <;> decide
    rw [decodeMv_eq_ok]
    cases o <;> simp [Opcode.HasFields, hbyte, hword, hsss]
  · rw [decodeMvi32_eq_ok]
    cases o <;> simp [Opcode.HasFields, hword, hsss, (wordRegCode_ne_zero _).symm]
  · rw [decodeMv32_eq_ok]
    cases o <;> simp [Opcode.HasFields, hword, hsss]
  · cases o <;> simp [Opcode.HasFields, hbyte, hword]

theorem decodeFamily_eq_error {op : Byte} {r : DecodeReject} (h : decodeFamily op = .error r) :
    r = .noMatch op ∨ r = .badRegister op := by
  unfold decodeFamily at h
  split_ifs at h
  · unfold decodeMvi at h
    split at h <;> simp_all
  · unfold decodeMv at h
    split at h <;> simp_all
  · unfold decodeMvi32 at h
    split at h <;> simp_all
  · unfold decodeMv32 at h
    split at h <;> simp_all
  · exact .inl (Except.error.inj h).symm

/-! ### The opcode byte -/

/-- The fixed code of an opcode (R75), none for a move. -/
def Opcode.fixedCode (cfg : Config) : Opcode → Option Byte
  | .add => some cfg.opcAdd
  | .sub => some cfg.opcSub
  | .xor => some cfg.opcXor
  | .cmp => some cfg.opcCmp
  | .out => some cfg.opcOut
  | .halt => some cfg.opcHalt
  | .aptr => some cfg.opcAptr
  | .jez => some cfg.opcJez
  | .jnz => some cfg.opcJnz
  | .mvi _ | .mv _ _ | .mvi32 _ | .mv32 _ _ => none

/-- A fixed code decodes to an opcode that has it (R77). -/
theorem decodeOpcode_of_fixed {cfg : Config} {op : Byte} (h : op ∈ cfg.fixedCodes) :
    ∃ o, decodeOpcode cfg op = .ok o ∧ o.fixedCode cfg = some op := by
  simp only [Config.fixedCodes, List.mem_cons, List.not_mem_nil, or_false] at h
  fun_cases decodeOpcode cfg op
  case case10 | case11 => simp_all
  all_goals exact ⟨_, rfl, congrArg some (Eq.symm ‹_›)⟩

/-- Everything that a byte that is no fixed code decodes to, in either mode (R76, R82). -/
theorem decodeOpcode_fields_eq_ok {cfg : Config} {hi : BitVec 2} {ddd sss : BitVec 3} {o : Opcode}
    (h : (hi ++ ddd ++ sss : Byte) ∉ cfg.fixedCodes) :
    decodeOpcode cfg (hi ++ ddd ++ sss) = .ok o ↔
      ¬ (cfg.highPairMode = .strict ∧ hi = 0b11#2) ∧ o.HasFields hi ddd sss := by
  rw [decodeOpcode_of_not_fixed h, highPair_fields, ← decodeFamily_fields_eq_ok]
  split_ifs with hstrict <;> simp [hstrict]

/-- An opcode byte that decodes to no opcode is named in the rejection, which is a DecodeError (R202). -/
theorem decodeOpcode_eq_error {cfg : Config} {op : Byte} {r : DecodeReject} (h : decodeOpcode cfg op = .error r) :
    r = .noMatch op ∨ r = .badRegister op := by
  by_cases hfixed : op ∈ cfg.fixedCodes
  · obtain ⟨o, ho, -⟩ := decodeOpcode_of_fixed hfixed
    exact absurd (ho.symm.trans h) (by simp)
  · rw [decodeOpcode_of_not_fixed hfixed] at h
    split_ifs at h
    · exact .inl (Except.error.inj h).symm
    · exact decodeFamily_eq_error h

/-- The mode matters only for a byte `0b11xxxxxx` that is no fixed code (R82). -/
theorem decodeOpcode_mode {cfg : Config} {op : Byte} (h : op.extractLsb' 6 2 ≠ 0b11#2 ∨ op ∈ cfg.fixedCodes)
    (mode mode' : HighPairMode) :
    decodeOpcode { cfg with highPairMode := mode } op = decodeOpcode { cfg with highPairMode := mode' } op := by
  unfold decodeOpcode
  -- the nine tests for a fixed code are the same on both sides
  iterate 9 refine ite_congr rfl (fun _ => rfl) fun _ => ?_
  have hhi : op.extractLsb' 6 2 ≠ 0b11#2 := h.resolve_right (by simp [Config.fixedCodes, *])
  rw [if_neg fun hm => hhi hm.2, if_neg fun hm => hhi hm.2]

/-- A byte has both high bits set exactly from `0xC0` on. -/
theorem highPair_eq_three_iff {hi : BitVec 2} {ddd sss : BitVec 3} :
    hi = 0b11#2 ↔ 192 ≤ BitVec.toNat (w := 8) (hi ++ ddd ++ sss) := by
  have hh := hi.isLt
  have hd := ddd.isLt
  have hs := sss.isLt
  rw [toNat_fields, BitVec.toNat_eq, BitVec.toNat_ofNat]
  omega

/-! ### Instructions and their encoding -/

/-- What the opcode byte of an instruction says of it. -/
def Instr.opcode : Instr → Opcode
  | .add => .add
  | .sub => .sub
  | .xor => .xor
  | .cmp => .cmp
  | .jez _ => .jez
  | .jnz _ => .jnz
  | .aptr _ => .aptr
  | .out => .out
  | .halt => .halt
  | .mvi dst _ => .mvi dst
  | .mv dst src => .mv dst src
  | .mvi32 dst _ => .mvi32 dst
  | .mv32 dst src => .mv32 dst src

open Laws.EncodingHasOneOfTheThreeWidths in
theorem encodingHasOneOfTheThreeWidths (i : Instr) : Statement i := by
  cases i
  exacts [add, sub, xor, cmp, jez _, jnz _, aptr _, out, halt, mvi _ _, mv _ _, mvi32 _ _, mv32 _ _]

/-- The canonical opcode byte of a well-formed instruction decodes to its opcode. -/
theorem decodeOpcode_opcodeByte {cfg : Config} {i : Instr} (hcfg : cfg.wellFormed = true)
    (hi : i.wellFormed cfg = true) : decodeOpcode cfg (i.opcodeByte cfg) = .ok i.opcode := by
  obtain ⟨hadd, hsub, hxor, hcmp, hout, hhalt, haptr, hjez, hjnz⟩ := decodeOpcode_fixed hcfg
  cases i with
  | mvi | mv => exact (decodeOpcode_fields_eq_ok (of_decide_eq_true hi)).mpr ⟨by simp, .inl rfl, rfl, rfl⟩
  | mvi32 | mv32 => exact (decodeOpcode_fields_eq_ok (of_decide_eq_true hi)).mpr ⟨by simp, rfl, rfl, rfl⟩
  | _ => assumption

/-- An opcode takes its instruction's immediate bytes. -/
theorem complete_immediateBytes (i : Instr) (rest : List Byte) :
    i.opcode.complete (i.immediateBytes ++ rest) = .ok i := by
  cases i with
  | jez imm | jnz imm | mvi32 dst imm =>
    simp [Instr.opcode, Instr.immediateBytes, Opcode.complete, wordBytes, withImm32, le32_wordByte]
  | _ => rfl

/-- Settles O30: the first byte decodes to the opcode, which takes the immediate bytes. -/
theorem decodingAnEncodedInstructionGivesItBack : Obligations.DecodingAnEncodedInstructionGivesItBack := by
  intro cfg i rest hcfg hi
  refine ⟨?_, (encodingHasOneOfTheThreeWidths i cfg).1⟩
  rw [encode, List.cons_append, decodeBytes_of_opcode (decodeOpcode_opcodeByte hcfg hi)]
  exact complete_immediateBytes i rest

theorem decodeBytes_cons_eq_ok {cfg : Config} {op : Byte} {rest : List Byte} {i : Instr} :
    decodeBytes cfg (op :: rest) = .ok i ↔ ∃ o, decodeOpcode cfg op = .ok o ∧ o.complete rest = .ok i := by
  rw [decodeBytes_cons]
  cases decodeOpcode cfg op <;> simp

theorem opcode_of_complete {o : Opcode} {rest : List Byte} {i : Instr} (h : o.complete rest = .ok i) :
    i.opcode = o := by
  cases o with
  | aptr | mvi =>
    rcases rest with _ | ⟨b, rest⟩ <;> cases h
    rfl
  | jez | jnz | mvi32 =>
    rcases rest with _ | ⟨b0, _ | ⟨b1, _ | ⟨b2, _ | ⟨b3, rest⟩⟩⟩⟩ <;> cases h
    rfl
  | _ =>
    cases h
    rfl

/-- The opcode byte of an instruction that has a fixed code is that code. -/
theorem opcodeByte_of_fixedCode {cfg : Config} {i : Instr} {op : Byte} (h : i.opcode.fixedCode cfg = some op) :
    op = i.opcodeByte cfg := by
  cases i <;> cases h <;> rfl

/-- The opcode byte of a move has its fields, but for bit 7, which is set in no canonical byte move (R86). -/
theorem fields_eq_opcodeByte {cfg : Config} {i : Instr} {hi : BitVec 2} {ddd sss : BitVec 3}
    (h : i.opcode.HasFields hi ddd sss) :
    hi ++ ddd ++ sss = i.opcodeByte cfg ∨ (hi = 0b11#2 ∧ i.opcodeByte cfg = 0b01#2 ++ ddd ++ sss) := by
  cases i with
  | mvi | mv =>
    obtain ⟨rfl | rfl, rfl, rfl⟩ := h
    · exact .inl rfl
    · exact .inr ⟨rfl, rfl⟩
  | mvi32 | mv32 =>
    obtain ⟨rfl, rfl, rfl⟩ := h
    exact .inl rfl
  | _ => exact h.elim

/-- Settles O31: a fixed code is its instruction's opcode byte, any other byte has the fields of a move. -/
theorem decodedBytesAreTheEncodingOrItsHighPairAlias : Obligations.DecodedBytesAreTheEncodingOrItsHighPairAlias := by
  intro cfg op rest i h
  obtain ⟨o, ho, hc⟩ := decodeBytes_cons_eq_ok.mp h
  obtain ⟨hwidth, himm⟩ := complete_eq_ok hc
  obtain rfl := opcode_of_complete hc
  refine ⟨hwidth, himm, ?_⟩
  by_cases hfixed : op ∈ cfg.fixedCodes
  · obtain ⟨o, ho', hcode⟩ := decodeOpcode_of_fixed hfixed
    obtain rfl := Except.ok.inj (ho.symm.trans ho')
    exact .inl (opcodeByte_of_fixedCode hcode)
  · obtain ⟨hi, ddd, sss, rfl⟩ := exists_eq_fields op
    obtain ⟨hmode, hfields⟩ := (decodeOpcode_fields_eq_ok hfixed).mp ho
    rcases fields_eq_opcodeByte hfields with hbyte | ⟨rfl, hbyte⟩
    · exact .inl hbyte
    · have hliteral : cfg.highPairMode = .literal := by
        cases hm : cfg.highPairMode with
        | literal => rfl
        | strict => exact absurd ⟨hm, rfl⟩ hmode
      refine .inr ⟨hliteral, hfixed, ?_, highPair_eq_three_iff.mp rfl⟩
      rw [hbyte, toNat_fields, toNat_fields, BitVec.toNat_ofNat, BitVec.toNat_ofNat]
      omega

/-- Settles O33: completing an opcode gives instructions of one width. -/
theorem theOpcodeByteSettlesTheWidth : Obligations.TheOpcodeByteSettlesTheWidth := by
  intro cfg op rest other i j hi hj
  obtain ⟨o, ho, hci⟩ := decodeBytes_cons_eq_ok.mp hi
  obtain ⟨o', ho', hcj⟩ := decodeBytes_cons_eq_ok.mp hj
  obtain rfl := Except.ok.inj (ho.symm.trans ho')
  exact ⟨width_eq_of_complete hci hcj, (encodingHasOneOfTheThreeWidths i cfg).2⟩

/-- Bit 7 does not matter to the fields of a byte move. -/
theorem hasFields_highPair_iff (o : Opcode) (ddd sss : BitVec 3) :
    o.HasFields 0b11#2 ddd sss ↔ o.HasFields 0b01#2 ddd sss := by
  cases o <;> simp [Opcode.HasFields]

theorem highPair_sub_eq (ddd sss : BitVec 3) :
    (0b11#2 ++ ddd ++ sss : Byte) - 128#8 = 0b01#2 ++ ddd ++ sss := by
  have hd := ddd.isLt
  have hs := sss.isLt
  apply BitVec.eq_of_toNat_eq
  rw [BitVec.toNat_sub, toNat_fields, toNat_fields]
  simp only [BitVec.toNat_ofNat]
  omega

/-- Settles O36: both bytes decode to the opcodes with their fields, which are the same opcodes. -/
theorem literalModeIgnoresBitSevenOfByteMoves : Obligations.LiteralModeIgnoresBitSevenOfByteMoves := by
  intro cfg op rest i hmode hhigh hfixed hfixed'
  obtain ⟨hi, ddd, sss, rfl⟩ := exists_eq_fields op
  obtain rfl := highPair_eq_three_iff.mpr hhigh
  rw [highPair_sub_eq] at hfixed' ⊢
  simp only [decodeBytes_cons_eq_ok, decodeOpcode_fields_eq_ok hfixed, decodeOpcode_fields_eq_ok hfixed', hmode,
    hasFields_highPair_iff, reduceCtorEq, false_and]

/-- Settles O29: the decoder evaluated on the eight words. -/
theorem wordsOfTheSpecDecodeToTheirInstructions : Obligations.WordsOfTheSpecDecodeToTheirInstructions := by
  unfold Obligations.WordsOfTheSpecDecodeToTheirInstructions
  decide

end Sys2Proof

namespace Sys2Proof.Machine

/-! ### The step -/

/-- Where there is an opcode byte, it and the four bytes after it are decoded (R80). -/
theorem fetchInstr_of_memRead {s : State} {op : Byte} (h : memRead s.mem s.pc.toNat = some op) (cfg : Config) :
    fetchInstr cfg s = decodeBytes cfg (op :: fetchBytes s.mem (s.pc.toNat + 1) 4) := by
  rw [fetchInstr, maxWidth, fetchBytes_succ_of_read h]

/-- An opcode byte that decodes to no opcode takes DecodeError (R202, R203). -/
theorem stepWith_of_no_opcode {cfg : Config} {s : State} {op : Byte} (hrun : s.status = .running)
    (hread : memRead s.mem s.pc.toNat = some op) (h : ∀ o, decodeOpcode cfg op ≠ .ok o) :
    stepWith cfg s = .next (takeError (.decodeError s.pc op) s) := by
  cases hop : decodeOpcode cfg op with
  | ok o => exact absurd hop (h o)
  | error r =>
    have hfetch : fetchInstr cfg s = .error r := by rw [fetchInstr_of_memRead hread, decodeBytes_cons, hop]
    rw [stepWith_of_fetch_error hrun hfetch]
    rcases decodeOpcode_eq_error hop with rfl | rfl <;> rfl

/-- Settles O34: the ids of a byte that decodes to a move are in range. -/
theorem invalidRegisterIdsTakeDecodeError : Obligations.InvalidRegisterIdsTakeDecodeError := by
  intro cfg s op hrun hread hfixed hids
  refine stepWith_of_no_opcode hrun hread fun o ho => ?_
  obtain ⟨hi, ddd, sss, rfl⟩ := exists_eq_fields op
  obtain ⟨-, hfields⟩ := (decodeOpcode_fields_eq_ok hfixed).mp ho
  obtain ⟨hddd, hbyte | ⟨-, hddd', hsss⟩⟩ := hfields.validIds
  · rw [toNat_fields_ddd] at hids
    rcases hids with ⟨-, hzero⟩ | ⟨-, hclear, -⟩
    · exact hddd (BitVec.eq_of_toNat_eq hzero)
    · rw [getLsbD_six_fields] at hclear
      rcases hbyte with rfl | rfl <;> exact absurd hclear (by decide)
  · rw [toNat_fields_ddd, toNat_fields_sss] at hids
    rcases hids with ⟨-, hzero⟩ | ⟨-, -, hzero | hseven | hseven⟩
    · exact hddd (BitVec.eq_of_toNat_eq hzero)
    · exact hddd (BitVec.eq_of_toNat_eq hzero)
    · exact hddd' (BitVec.eq_of_toNat_eq hseven)
    · exact hsss (BitVec.eq_of_toNat_eq hseven)

/-- Settles O35: no opcode has the high bits 00, and strict mode refuses 11. -/
theorem bytesThatMatchNothingTakeDecodeError : Obligations.BytesThatMatchNothingTakeDecodeError := by
  intro cfg s op hrun hread hfixed hbyte
  refine stepWith_of_no_opcode hrun hread fun o ho => ?_
  obtain ⟨hi, ddd, sss, rfl⟩ := exists_eq_fields op
  obtain ⟨hmode, hfields⟩ := (decodeOpcode_fields_eq_ok hfixed).mp ho
  rcases hbyte with hlow | ⟨hstrict, hhigh⟩
  · rw [toNat_fields] at hlow
    have hzero : hi.toNat = 0 := by omega
    obtain ⟨-, (rfl | rfl) | ⟨rfl, -⟩⟩ := hfields.validIds <;> exact absurd hzero (by decide)
  · exact hmode ⟨hstrict, highPair_eq_three_iff.mpr hhigh⟩

/-- A step depends on the parameters only in what it fetches. -/
theorem stepWith_congr {cfg cfg' : Config} {s : State} (h : fetchInstr cfg s = fetchInstr cfg' s) :
    stepWith cfg s = stepWith cfg' s := by
  unfold stepWith
  rw [h]

/-- Settles O37: the opcode byte decodes the same, so the fetch is the same. -/
theorem highPairModeMattersOnlyForHighPairBytes : Obligations.HighPairModeMattersOnlyForHighPairBytes := by
  intro cfg s op hread hop
  refine stepWith_congr ?_
  have hsame : op.extractLsb' 6 2 ≠ 0b11#2 ∨ op ∈ cfg.fixedCodes := by
    refine hop.imp_left fun hlow => ?_
    obtain ⟨hi, ddd, sss, rfl⟩ := exists_eq_fields op
    rw [highPair_fields, Ne, highPair_eq_three_iff]
    exact not_le.mpr hlow
  rw [fetchInstr_of_memRead hread, fetchInstr_of_memRead hread, decodeBytes_cons, decodeBytes_cons,
    decodeOpcode_mode hsame]

/-- An instruction whose bytes do not all lie below `N` is truncated. -/
theorem fetchInstr_of_truncated {cfg : Config} {s : State} {op : Byte} {rest : List Byte} {i : Instr}
    (hread : memRead s.mem s.pc.toNat = some op) (hdecode : decodeBytes cfg (op :: rest) = .ok i)
    (hend : s.mem.size < s.pc.toNat + i.width) : fetchInstr cfg s = .error .truncated := by
  obtain ⟨o, ho, hc⟩ := decodeBytes_cons_eq_ok.mp hdecode
  rw [fetchInstr_of_memRead hread, decodeBytes_of_opcode ho]
  cases hfetched : o.complete (fetchBytes s.mem (s.pc.toNat + 1) 4) with
  | error r => rw [complete_eq_error hfetched]
  | ok j =>
    obtain ⟨hwidth, -⟩ := complete_eq_ok hfetched
    have hlt := (memRead_eq_some.mp hread).1
    rw [width_eq_of_complete hfetched hc, length_fetchBytes] at hwidth
    omega

/-- Settles O38: a fetch at or past `N` has no opcode, one that reaches `N` is truncated. -/
theorem instructionBytesOutOfRangeTakeAddressError : Obligations.InstructionBytesOutOfRangeTakeAddressError := by
  intro cfg s hrun
  refine ⟨fun hend => ?_, fun op rest i hread hdecode hend => ?_⟩
  · have hfetch : fetchInstr cfg s = .error .noOpcode := by
      rw [fetchInstr, fetchBytes_of_end hend]
      rfl
    exact stepWith_of_fetch_error hrun hfetch
  · exact stepWith_of_fetch_error hrun (fetchInstr_of_truncated hread hdecode hend)

/-- Settles O39: the bytes at `pc` are the ones fetched. -/
theorem aStepRunsTheDecodedInstruction : Obligations.AStepRunsTheDecodedInstruction :=
  ⟨fun _ _ _ _ hrun hbytes hdecode => stepWith_of_fetchInstr hrun (fetchInstr_of_holdsAt hbytes hdecode),
    fun _ => rfl⟩

end Sys2Proof.Machine
end

section
/-!
The statements of 40_alu.md: what ADD, SUB, XOR and CMP compute, that each writes one byte register and nothing else, and
how a step runs them.
-/

namespace Sys2Proof.Machine

/-! ### Steps at the bytes of an instruction -/

/-- A step at the bytes that decode to an instruction of their length does what the instruction does (R81). -/
theorem stepsAs_of_decodeBytes {bytes : Config → List Byte} {i : Instr} {effect : State → State}
    (hdecode : ∀ cfg : Config, cfg.wellFormed = true →
      decodeBytes cfg (bytes cfg) = .ok i ∧ (bytes cfg).length = i.width)
    (hexec : ∀ s, exec i s = .next (effect s)) : StepsAs bytes effect := by
  intro cfg s hcfg hrun hbytes
  obtain ⟨hdec, hwidth⟩ := hdecode cfg hcfg
  rw [stepWith_of_fetchInstr hrun (fetchInstr_of_holdsAt hbytes hdec), hexec, hwidth]
  rfl

/-- A step at the canonical bytes of an instruction does what the instruction does, where they are its own under every
choice of the fixed codes. -/
theorem stepsAs_encode {i : Instr} {effect : State → State} (hi : ∀ cfg, i.wellFormed cfg = true)
    (hexec : ∀ s, exec i s = .next (effect s)) : StepsAs (fun cfg => encode cfg i) effect := by
  refine stepsAs_of_decodeBytes (fun cfg hcfg => ?_) hexec
  have hback := decodingAnEncodedInstructionGivesItBack cfg i [] hcfg (hi cfg)
  rwa [List.append_nil] at hback

/-! ### What the ALU instructions compute -/

theorem byte_add_eq_ofNat (x y : Byte) : x + y = BitVec.ofNat 8 ((x.toNat + y.toNat) % 256) :=
  BitVec.eq_of_toNat_eq (by simp)

theorem byte_sub_eq_ofNat (x y : Byte) : x - y = BitVec.ofNat 8 ((x.toNat + 256 - y.toNat) % 256) := by
  refine BitVec.eq_of_toNat_eq ?_
  have hy := y.isLt
  rw [BitVec.toNat_sub, BitVec.toNat_ofNat]
  omega

theorem compareFlag_eq_ite (x y : Byte) : compareFlag x y = if x = y then 0x00#8 else 0x01#8 := ite_not ..

/-- ADD in every state (R100). -/
theorem exec_add (s : State) :
    exec .add s = .next { s with a := BitVec.ofNat 8 ((s.a.toNat + s.b.toNat) % 256) } := by
  rw [← byte_add_eq_ofNat]
  rfl

/-- SUB in every state (R101). -/
theorem exec_sub (s : State) :
    exec .sub s = .next { s with a := BitVec.ofNat 8 ((s.a.toNat + 256 - s.b.toNat) % 256) } := by
  rw [← byte_sub_eq_ofNat]
  rfl

/-- CMP in every state (R103). -/
theorem exec_cmp (s : State) : exec .cmp s = .next { s with f := if s.a = s.b then 0x00#8 else 0x01#8 } := by
  rw [← compareFlag_eq_ite]
  rfl

/-- Settles O1, from what ADD does in every state. -/
theorem addWritesTheSumModulo256 : Obligations.AddWritesTheSumModulo256 :=
  ⟨exec_add, stepsAs_encode (i := .add) (fun _ => rfl) exec_add⟩

/-- Settles O2, from what SUB does in every state. -/
theorem subWritesTheDifferenceModulo256 : Obligations.SubWritesTheDifferenceModulo256 :=
  ⟨exec_sub, stepsAs_encode (i := .sub) (fun _ => rfl) exec_sub⟩

/-- Settles O3: the exclusive-or is XOR's own definition. -/
theorem xorWritesTheBitwiseExclusiveOr : Obligations.XorWritesTheBitwiseExclusiveOr :=
  ⟨fun _ => rfl, stepsAs_encode (i := .xor) (fun _ => rfl) fun _ => rfl⟩

/-- Settles O4, from what CMP does in every state. -/
theorem cmpWritesWhetherTheBytesDiffer : Obligations.CmpWritesWhetherTheBytesDiffer :=
  ⟨exec_cmp, stepsAs_encode (i := .cmp) (fun _ => rfl) exec_cmp⟩

/-! ### What the ALU instructions leave unchanged -/

/-- ADD, SUB and XOR write `a` (R104). -/
theorem exec_eq_setByteReg_a {i : Instr} (hi : i = .add ∨ i = .sub ∨ i = .xor) (s : State) :
    ∃ v, exec i s = .next (setByteReg .a v s) := by
  rcases hi with rfl | rfl | rfl <;> exact ⟨_, rfl⟩

/-- An ALU instruction writes one byte register. -/
theorem exec_eq_setByteReg_of_alu {i : Instr} (hi : i = .add ∨ i = .sub ∨ i = .xor ∨ i = .cmp) (s : State) :
    ∃ r v, exec i s = .next (setByteReg r v s) := by
  rcases hi with rfl | rfl | rfl | rfl <;> exact ⟨_, _, rfl⟩

theorem not_usesPtrC_of_alu {i : Instr} (hi : i = .add ∨ i = .sub ∨ i = .xor ∨ i = .cmp) : ¬ UsesPtrC i := by
  rcases hi with rfl | rfl | rfl | rfl <;> simp [UsesPtrC]

theorem width_of_alu {i : Instr} (hi : i = .add ∨ i = .sub ∨ i = .xor ∨ i = .cmp) : i.width = 1 := by
  rcases hi with rfl | rfl | rfl | rfl <;> rfl

/-- Settles O5: the one write is of a byte register, and no operand is `ptr_c`. -/
theorem aluInstructionsOnlyComputeAndFallThrough : Obligations.AluInstructionsOnlyComputeAndFallThrough := by
  intro i hi
  refine ⟨fun s => ?_, fun cfg s t hrun hfetch hstep => ?_⟩
  · obtain ⟨r, v, hexec⟩ := exec_eq_setByteReg_of_alu hi s
    exact ⟨_, hexec, exec_setMem (not_usesPtrC_of_alu hi) hexec, by simp, by simp, by simp⟩
  · obtain ⟨r, v, hexec⟩ := exec_eq_setByteReg_of_alu hi (advancePc i.width s)
    rw [stepWith_of_fetchInstr hrun hfetch, hexec] at hstep
    obtain rfl := Host.Outcome.next.inj hstep
    exact ⟨by simp [width_of_alu hi], by simp, by simp [hrun]⟩

/-- Settles O6, from the frame of the one byte register written. -/
theorem aluFrame : Obligations.AluFrame := by
  refine fun s t => ⟨fun i hi h => ?_, fun h => ?_⟩
  · obtain ⟨v, hexec⟩ := exec_eq_setByteReg_a hi s
    obtain rfl := Host.Outcome.next.inj (hexec.symm.trans h)
    exact sameBut_setByteReg .a v s
  · obtain rfl := Host.Outcome.next.inj h
    exact sameBut_setByteReg .f _ s

end Sys2Proof.Machine
end

section
/-!
The statements of 41_branch.md: where JEZ and JNZ leave `pc`, the address errors of their bytes and of their target, the
ways in which a step can change `pc`, and the frame of the instructions that write a word register.
-/

namespace Sys2Proof.Machine

/-! ### What the branches do -/

theorem flagSet_eq_true_iff (s : State) : flagSet s = true ↔ s.f ≠ 0x00#8 := bne_iff_ne

theorem flagSet_eq_false_iff (s : State) : flagSet s = false ↔ s.f = 0x00#8 := bne_eq_false_iff_eq

/-- JEZ in every state (R120). -/
theorem exec_jez (target : Word) (s : State) :
    exec (.jez target) s = .next { s with pc := if s.f = 0x00#8 then target else s.pc } := by
  refine (jumpIf_eq_setWordReg (!flagSet s) target s).trans ?_
  simp only [Bool.not_eq_true', flagSet_eq_false_iff]
  rfl

/-- JNZ in every state (R121). -/
theorem exec_jnz (target : Word) (s : State) :
    exec (.jnz target) s = .next { s with pc := if s.f = 0x00#8 then s.pc else target } := by
  refine (jumpIf_eq_setWordReg (flagSet s) target s).trans ?_
  simp only [flagSet_eq_true_iff, ite_not]
  rfl

/-! ### Address errors of a branch -/

/-- Where a byte of the instruction would lie at or past `N`, the step takes AddressError (R80). -/
theorem stepWith_of_instruction_past_end {cfg : Config} {s : State} (i : Instr) (hcfg : cfg.wellFormed = true)
    (hi : i.wellFormed cfg = true) (hrun : s.status = .running)
    (hend : s.mem.size ≤ s.pc.toNat ∨
      (memRead s.mem s.pc.toNat = some (i.opcodeByte cfg) ∧ s.mem.size < s.pc.toNat + i.width)) :
    stepWith cfg s = .next (takeError (.addressError s.pc) s) := by
  obtain ⟨hopcode, hlater⟩ := instructionBytesOutOfRangeTakeAddressError cfg s hrun
  rcases hend with hend | ⟨hread, hend⟩
  · exact hopcode hend
  · exact hlater _ _ i hread (decodingAnEncodedInstructionGivesItBack cfg i [] hcfg hi).1 hend

/-- A target at or past `N` is found at the next fetch, which names the target (R122, D6). -/
theorem stepWith_of_target_past_end {s : State} {target : Word} (hrun : s.status = .running)
    (hend : s.mem.size ≤ target.toNat) (cfg : Config) :
    stepWith cfg (setWordReg .pc target s) = .next (takeError (.addressError target) (setWordReg .pc target s)) :=
  (instructionBytesOutOfRangeTakeAddressError cfg (setWordReg .pc target s) hrun).1 hend

/-- Settles O7, from what JEZ does in every state and the fetches that reach past `N`. -/
theorem jezJumpsWhereTheFlagIsZero : Obligations.JezJumpsWhereTheFlagIsZero := by
  refine ⟨exec_jez, fun b0 b1 b2 b3 => ?_, fun cfg s hcfg hrun hend => ?_, fun cfg target s t h hf hrun hend => ?_⟩
  · exact stepsAs_of_decodeBytes (i := .jez (le32 b0 b1 b2 b3))
      (fun cfg hcfg => ⟨decodeBytes_of_opcode (decodeOpcode_opcodeByte (i := .jez 0) hcfg rfl) _, rfl⟩) (exec_jez _)
  · exact stepWith_of_instruction_past_end (.jez 0) hcfg rfl hrun (hend.imp_right (And.imp_right Nat.lt_succ_of_le))
  · obtain rfl := Host.Outcome.next.inj ((execJez_of_flag_zero hf target).symm.trans h)
    exact stepWith_of_target_past_end hrun hend cfg

/-- Settles O8, from what JNZ does in every state and the fetches that reach past `N`. -/
theorem jnzJumpsWhereTheFlagIsNotZero : Obligations.JnzJumpsWhereTheFlagIsNotZero := by
  refine ⟨exec_jnz, fun b0 b1 b2 b3 => ?_, fun cfg s hcfg hrun hend => ?_, fun cfg target s t h hf hrun hend => ?_⟩
  · exact stepsAs_of_decodeBytes (i := .jnz (le32 b0 b1 b2 b3))
      (fun cfg hcfg => ⟨decodeBytes_of_opcode (decodeOpcode_opcodeByte (i := .jnz 0) hcfg rfl) _, rfl⟩) (exec_jnz _)
  · exact stepWith_of_instruction_past_end (.jnz 0) hcfg rfl hrun (hend.imp_right (And.imp_right Nat.lt_succ_of_le))
  · obtain rfl := Host.Outcome.next.inj ((execJnz_of_flag_ne_zero hf target).symm.trans h)
    exact stepWith_of_target_past_end hrun hend cfg

/-! ### The ways `pc` changes -/

/-- Everything an instruction can do to `pc`. -/
theorem exec_pc {i : Instr} {s t : State} (h : exec i s = .next t) :
    t.pc = s.pc ∨
    (∃ target, i = .jez target ∧ s.f = 0x00#8 ∧ t.pc = target) ∨
    (∃ target, i = .jnz target ∧ s.f ≠ 0x00#8 ∧ t.pc = target) ∨
    (∃ src, i = .mv32 .pc src ∧ src ≠ .pc ∧ t.pc = wordReg src s) ∨
    (∃ imm, i = .mvi32 .pc imm ∧ t.pc = imm) := by
  refine or_iff_not_imp_left.mpr fun hne => ?_
  have hwrites : WritesWordReg i .pc := (effect_of_exec h).writesWordReg hne
  obtain ⟨src, rfl⟩ | ⟨imm, rfl⟩ | ⟨hptr, -⟩ | ⟨-, target, rfl | rfl⟩ := hwrites
  · obtain rfl := Host.Outcome.next.inj h
    refine .inr (.inr (.inl ⟨src, rfl, ?_, rfl⟩))
    rintro rfl
    exact hne rfl
  · obtain rfl := Host.Outcome.next.inj h
    exact .inr (.inr (.inr ⟨imm, rfl, rfl⟩))
  · cases hptr
  · obtain rfl := Host.Outcome.next.inj ((exec_jez target s).symm.trans h)
    have hf : s.f = 0x00#8 := by_contra fun hf => hne (if_neg hf)
    exact .inl ⟨target, rfl, hf, if_pos hf⟩
  · obtain rfl := Host.Outcome.next.inj ((exec_jnz target s).symm.trans h)
    have hf : s.f ≠ 0x00#8 := fun hf => hne (if_pos hf)
    exact .inr (.inl ⟨target, rfl, hf, if_neg hf⟩)

/-- Settles O9: the instruction runs after the advance, which leaves every register but `pc`. -/
theorem thePcChangesOnlyInTheWaysTheSpecLists : Obligations.ThePcChangesOnlyInTheWaysTheSpecLists := by
  intro cfg s t i hrun hfetch hstep
  rw [stepWith_of_fetchInstr hrun hfetch] at hstep
  refine (exec_pc hstep).imp_right (Or.imp_right (Or.imp_right (Or.imp_left ?_)))
  rintro ⟨src, hi, hsrc, hpc⟩
  exact ⟨src, hi, hsrc, hpc.trans (wordReg_advancePc_of_ne s i.width hsrc)⟩

/-! ### What the writes of a word register leave unchanged -/

/-- An instruction that answers the state with one word register written changes nothing else. -/
theorem sameBut_of_exec_eq_setWordReg {i : Instr} {r : WordReg} {v : Word} {s t : State}
    (h : exec i s = .next t) (hexec : exec i s = .next (setWordReg r v s)) : SameBut [] [r] [] s t := by
  obtain rfl := Host.Outcome.next.inj (hexec.symm.trans h)
  exact sameBut_setWordReg r v s

/-- Settles O19, from the frame of the one word register written. -/
theorem branchAndWordMoveFrame : Obligations.BranchAndWordMoveFrame := by
  refine fun s t => ⟨fun target h => ?_, fun imm h => sameBut_of_exec_eq_setWordReg h rfl, fun dst src imm h => ?_⟩
  · rcases h with h | h <;> exact sameBut_of_exec_eq_setWordReg h (jumpIf_eq_setWordReg _ target s)
  · rcases h with h | h <;> exact sameBut_of_exec_eq_setWordReg h rfl

end Sys2Proof.Machine
end

section
/-!
The statements of 42_moves.md: what APTR, MV, MVI, MV32 and MVI32 write, and the frames of the moves into a byte register
and into memory.
-/

namespace Sys2Proof.Machine

/-! ### Byte operands -/

/-- Below `N` the byte at the address of `ptr_c` takes any value. -/
theorem exists_writeByteId_ptrC {s : State} (hlt : (indirectAddress s).toNat < s.mem.size) (v : Byte) :
    ∃ t, writeByteId .ptrC v s = some t ∧ memRead t.mem (indirectAddress s).toNat = some v ∧
      SameBut [] [] [(indirectAddress s).toNat] s t := by
  have hw : memWrite s.mem (indirectAddress s).toNat v = some _ := memWrite_eq_some.mpr ⟨hlt, rfl⟩
  exact ⟨_, writeByteId_ptrC_eq_some.mpr ⟨_, hw, rfl⟩, memRead_of_memWrite_self hw, sameBut_setMem_of_memWrite hw⟩

theorem sameBut_of_writeByteId_reg {r : ByteReg} {v : Byte} {s t : State} (h : writeByteId (.reg r) v s = some t) :
    SameBut [r] [] [] s t := by
  obtain rfl := Option.some.inj h
  exact sameBut_setByteReg r v s

theorem sameBut_of_writeByteId_ptrC {v : Byte} {s t : State} (h : writeByteId .ptrC v s = some t) :
    SameBut [] [] [(indirectAddress s).toNat] s t := by
  obtain ⟨m, hm, rfl⟩ := writeByteId_ptrC_eq_some.mp h
  exact sameBut_setMem_of_memWrite hm

/-- An address that reads as before needs no place among those that may change. -/
theorem SameBut.drop_addr {bytes : List ByteReg} {words : List WordReg} {addr : Nat} {s t : State}
    (h : SameBut bytes words [addr] s t) (hread : memRead t.mem addr = memRead s.mem addr) :
    SameBut bytes words [] s t := by
  obtain ⟨hbytes, hwords, hsize, hmem, hout, hstatus⟩ := h
  refine ⟨hbytes, hwords, hsize, fun other _ => ?_, hout, hstatus⟩
  by_cases hother : other = addr
  · rw [hother, hread]
  · exact hmem other (mt List.mem_singleton.mp hother)

/-! ### What the moves do -/

/-- MV reads its source, then writes its destination (R141). -/
theorem exec_mv_of_read_of_write {dst src : ByteId} {v : Byte} {s t : State} (hread : readByteId src s = some v)
    (hwrite : writeByteId dst v s = some t) : exec (.mv dst src) s = .next t :=
  congrArg (orAddressError (.mv dst src) s) (Option.bind_eq_some_iff.mpr ⟨v, hread, hwrite⟩)

/-- MVI writes its destination (R142). -/
theorem exec_mvi_of_write {dst : ByteId} {imm : Byte} {s t : State} (hwrite : writeByteId dst imm s = some t) :
    exec (.mvi dst imm) s = .next t :=
  congrArg (orAddressError (.mvi dst imm) s) hwrite

/-- Settles O11: the one write is of the byte read from the source. -/
theorem mvIntoARegisterTakesTheSourceByte : Obligations.MvIntoARegisterTakesTheSourceByte := by
  refine ⟨fun dst src s => ?_, fun dst s hlt => ?_⟩
  · exact ⟨_, exec_mv_of_read_of_write rfl rfl, byteReg_setByteReg_self s dst _, sameBut_setByteReg dst _ s⟩
  · rw [← toNat_indirectAddress] at hlt ⊢
    have hread : memRead s.mem (indirectAddress s).toNat = some _ := memRead_eq_some.mpr ⟨hlt, rfl⟩
    refine ⟨_, exec_mv_of_read_of_write hread rfl, ?_, sameBut_setByteReg dst _ s⟩
    rw [byteReg_setByteReg_self]
    exact hread

/-- Settles O12: from `ptr_c` itself the byte written is the one read at the same address. -/
theorem mvIntoMemoryStoresTheSourceByte : Obligations.MvIntoMemoryStoresTheSourceByte := by
  intro s hlt
  rw [← toNat_indirectAddress] at hlt
  refine ⟨fun src => ?_, ?_⟩
  · obtain ⟨t, hwrite, hstored, hframe⟩ := exists_writeByteId_ptrC hlt (byteReg src s)
    exact ⟨t, exec_mv_of_read_of_write rfl hwrite, hstored, hframe⟩
  · have hread : memRead s.mem (indirectAddress s).toNat = some _ := memRead_eq_some.mpr ⟨hlt, rfl⟩
    obtain ⟨t, hwrite, hstored, hframe⟩ := exists_writeByteId_ptrC hlt _
    exact ⟨t, exec_mv_of_read_of_write hread hwrite, hframe.drop_addr (hstored.trans hread.symm)⟩

/-- Settles O13: the one write is of the immediate. -/
theorem mviWritesTheImmediateByte : Obligations.MviWritesTheImmediateByte := by
  refine ⟨fun dst imm s => ?_, fun imm s hlt => ?_⟩
  · exact ⟨_, exec_mvi_of_write rfl, byteReg_setByteReg_self s dst imm, sameBut_setByteReg dst imm s⟩
  · rw [← toNat_indirectAddress] at hlt
    obtain ⟨t, hwrite, hstored, hframe⟩ := exists_writeByteId_ptrC hlt imm
    exact ⟨t, exec_mvi_of_write hwrite, hstored, hframe⟩

/-! ### What the byte moves leave unchanged -/

/-- Settles O17, from the frame of the one byte register written; only a `ptr_c` source can fail. -/
theorem byteRegisterMoveFrame : Obligations.ByteRegisterMoveFrame := by
  refine fun dst src imm s t => ⟨fun h => ?_, fun h => ?_⟩
  · rcases execMv_eq_next h with ⟨v, -, hwrite⟩ | ⟨hptr, hrange, rfl⟩
    · exact .inl (sameBut_of_writeByteId_reg hwrite)
    · exact .inr ⟨hptr.resolve_right ByteId.noConfusion, memRead_eq_none.mpr hrange, rfl⟩
  · rcases execMvi_eq_next h with hwrite | ⟨hptr, -⟩
    · exact sameBut_of_writeByteId_reg hwrite
    · cases hptr

/-- Settles O18, from the frame of the one byte stored. -/
theorem storeFrame : Obligations.StoreFrame := by
  refine fun src imm s t => ⟨fun h => ?_, fun h => ?_⟩
  · rcases execMv_eq_next h with ⟨v, -, hwrite⟩ | ⟨-, hrange, rfl⟩
    · exact .inl (sameBut_of_writeByteId_ptrC hwrite)
    · exact .inr ⟨memRead_eq_none.mpr hrange, rfl⟩
  · rcases execMvi_eq_next h with hwrite | ⟨-, hrange, rfl⟩
    · exact .inl (sameBut_of_writeByteId_ptrC hwrite)
    · exact .inr ⟨memRead_eq_none.mpr hrange, rfl⟩

/-! ### The pointer and the word moves -/

/-- APTR in every state (R140): its byte counts as unsigned. -/
theorem exec_aptr (imm : Byte) (s : State) :
    exec (.aptr imm) s = .next { s with ptr := BitVec.ofNat 32 ((s.ptr.toNat + imm.toNat) % 2 ^ 32) } := by
  have hsum : s.ptr + imm.setWidth 32 = BitVec.ofNat 32 ((s.ptr.toNat + imm.toNat) % 2 ^ 32) :=
    BitVec.eq_of_toNat_eq (by simp)
  rw [← hsum]
  rfl

/-- Settles O10, from what APTR does in every state. -/
theorem aptrAddsTheUnsignedByteToPtr : Obligations.AptrAddsTheUnsignedByteToPtr :=
  ⟨exec_aptr, fun imm => stepsAs_encode (i := .aptr imm) (fun _ => rfl) (exec_aptr imm)⟩

/-- Settles O15: the one write is of the source's value. -/
theorem mv32CopiesAWordRegister : Obligations.Mv32CopiesAWordRegister :=
  fun dst _ s => ⟨_, rfl, wordReg_setWordReg_self s dst _, sameBut_setWordReg dst _ s⟩

/-- Settles O16: the one write is of the immediate. -/
theorem mvi32WritesTheImmediateWord : Obligations.Mvi32WritesTheImmediateWord :=
  fun dst imm s => ⟨_, rfl, wordReg_setWordReg_self s dst imm, sameBut_setWordReg dst imm s⟩

end Sys2Proof.Machine
end

section
/-!
The statements of 43_output_halt.md: what OUT and HALT do, that only OUT writes the output, and that only HALT ends a run
without an error.
-/

namespace Sys2Proof.Machine

/-- Settles O20: OUT emits `a`, and an instruction whose effect changes the output is OUT. -/
theorem outAppendsTheByteA : Obligations.OutAppendsTheByteA := by
  refine ⟨fun _ => rfl, stepsAs_encode (i := .out) (fun _ => rfl) fun _ => rfl, fun i s t hexec hne => ?_⟩
  exact by_contra fun hout => hne ((effect_of_exec hexec).eq_out hout)

/-- The status becomes Halted by HALT alone: the other instructions that change it take an AddressError. -/
theorem Effect.eq_halt {i : Instr} {s t : State} (h : Effect i s t) (hs : s.status ≠ .halted)
    (ht : t.status = .halted) : i = .halt := by
  rcases h.eq_halt_or_usesPtrC (ht.trans_ne hs.symm) with hhalt | ⟨hfault, -⟩
  · exact hhalt
  · exact absurd (ht.symm.trans hfault) Status.noConfusion

/-- A step that ends in Halted ran HALT: an undecodable instruction ends in Faulted. -/
theorem fetchInstr_eq_halt_of_stepWith {cfg : Config} {s t : State} (h : stepWith cfg s = .next t)
    (ht : t.status = .halted) : fetchInstr cfg s = .ok .halt := by
  obtain ⟨hrun, ⟨r, -, rfl⟩ | ⟨i, hfetch, hexec⟩⟩ := stepWith_eq_next h
  · exact absurd ht Status.noConfusion
  · have hs : (advancePc i.width s).status ≠ .halted := by simp [hrun]
    rw [hfetch, (effect_of_exec hexec).eq_halt hs ht]

/-- Settles O21, from what HALT does in every state and what a step that ends in Halted ran. -/
theorem haltEndsTheRunWithTheOutput : Obligations.HaltEndsTheRunWithTheOutput := by
  refine ⟨fun _ => ⟨rfl, rfl⟩, stepsAs_encode (i := .halt) (fun _ => rfl) fun _ => rfl, fun cfg s t hhalted => ?_,
    fun _ _ _ _ => fetchInstr_eq_halt_of_stepWith⟩
  rw [stepWith_of_halted hhalted]
  exact nofun

end Sys2Proof.Machine
end

section
/-!
The statements of 60_exceptions.md: what a step that ends in an error names and leaves unchanged, and that a run without a
bound never ends or has exactly one result.
-/

namespace Sys2Proof.Machine

/-! ### Errors -/

/-- Every decode error names the address of the opcode byte (R203). -/
@[simp] theorem errorPc0_rejectRecord (pc0 : Word) (r : DecodeReject) : errorPc0 (rejectRecord pc0 r) = pc0 := by
  cases r <;> rfl

/-- An instruction that ends a Running core in an error takes its own AddressError and writes nothing else (R205). -/
theorem Effect.eq_addressError {i : Instr} {s t : State} {record : ErrorRecord} (h : Effect i s t)
    (hs : s.status = .running) (ht : t.status = .faulted record) :
    record = .addressError (opcodeAddress i.width s) ∧ t = takeError record s := by
  cases h with
  | addressError =>
    obtain rfl := Status.faulted.inj ht
    exact ⟨rfl, rfl⟩
  | halt => exact absurd ht Status.noConfusion
  | byteWrite | wordWrite | store | output => simp [hs] at ht

/-- Settles O41: an undecodable instruction is rejected at the `pc` before the advance, and a decoded one takes its error
after it, with the advance subtracted again. -/
theorem anErrorChangesNothingButThePcAndTheStatus : Obligations.AnErrorChangesNothingButThePcAndTheStatus := by
  intro cfg s t record hrun hstep ht
  obtain ⟨-, ⟨r, hfetch, rfl⟩ | ⟨i, hfetch, hexec⟩⟩ := stepWith_eq_next hstep
  · obtain rfl := Status.faulted.inj ht
    exact ⟨errorPc0_rejectRecord s.pc r, .inl ⟨⟨r, hfetch⟩, rfl⟩⟩
  · obtain ⟨hrecord, rfl⟩ := (effect_of_exec hexec).eq_addressError hrun ht
    rw [opcodeAddress_advancePc] at hrecord
    exact ⟨congrArg errorPc0 hrecord, .inr ⟨i, hfetch, hrecord, rfl⟩⟩

/-! ### Runs without a bound -/

/-- A state has no result exactly while it is Running (R235). -/
theorem resultOf_eq_none {s : State} : resultOf s = none ↔ s.status = .running := by
  unfold resultOf
  split <;> simp_all

/-- A run from any state gives a result with any fuel: it steps from Running states alone, and no such step stops. -/
theorem runFrom_answers_next (cfg : Config) (fuel : Nat) (s : State) : ∃ r, runFrom cfg fuel s = .next r := by
  induction fuel generalizing s with
  | zero =>
    cases h : resultOf s with
    | none => exact ⟨_, runFrom_zero_of_running h⟩
    | some r => exact ⟨r, runFrom_of_resultOf h 0⟩
  | succ n ih =>
    cases h : resultOf s with
    | none =>
      obtain ⟨t, ht⟩ := stepWith_answers_next (resultOf_eq_none.mp h) cfg
      rw [runFrom_succ_of_step h ht]
      exact ih t
    | some r => exact ⟨r, runFrom_of_resultOf h _⟩

/-- A run of an image that can be loaded is never refused. -/
theorem run_answers_next {image : List Byte} (h : image.length ≤ 2 ^ 32) (cfg : Config) (fuel : Nat) :
    ∃ r, run cfg image fuel = .next r := by
  obtain ⟨r, hr⟩ := runFrom_answers_next cfg fuel _
  exact ⟨r, run_eq_next.mpr ⟨_, construct_eq_next.mpr ⟨h, rfl⟩, hr⟩⟩

/-- Two results of one image are those of two fuels, and both stand with the sum of the fuels. -/
theorem RunEndsIn.unique {cfg : Config} {image : List Byte} {r q : RunResult} (hr : RunEndsIn cfg image r)
    (hq : RunEndsIn cfg image q) : q = r := by
  obtain ⟨hrend, m, hm⟩ := hr
  obtain ⟨hqend, n, hn⟩ := hq
  have hrsum : run cfg image (m + n) = .next r := moreFuelKeepsAFinishedRun cfg image m n r hm hrend
  have hqsum : run cfg image (n + m) = .next q := moreFuelKeepsAFinishedRun cfg image n m q hn hqend
  rw [Nat.add_comm, hrsum] at hqsum
  exact (Host.Outcome.next.inj hqsum).symm

theorem NeverEnds.not_runEndsIn {cfg : Config} {image : List Byte} (h : NeverEnds cfg image) (r : RunResult) :
    ¬ RunEndsIn cfg image r := by
  rintro ⟨hend, fuel, hr⟩
  exact hend (Host.Outcome.next.inj (hr.symm.trans (h fuel)))

/-- A run that ends with some fuel has a result without a bound. -/
theorem exists_runEndsIn_of_not_neverEnds {cfg : Config} {image : List Byte} (hlen : image.length ≤ 2 ^ 32)
    (h : ¬ NeverEnds cfg image) : ∃ r, RunEndsIn cfg image r := by
  obtain ⟨fuel, hfuel⟩ := not_forall.mp h
  obtain ⟨r, hr⟩ := run_answers_next hlen cfg fuel
  exact ⟨r, fun hout => hfuel (hout ▸ hr), fuel, hr⟩

/-- Settles O48: every fuel runs out, or some fuel gives a result, which every other fuel that ends gives too. -/
theorem aRunEndsInExactlyOneResultOrNever : Obligations.ARunEndsInExactlyOneResultOrNever := by
  intro cfg image hlen
  by_cases hnever : NeverEnds cfg image
  · exact .inl ⟨hnever, hnever.not_runEndsIn⟩
  · obtain ⟨r, hr⟩ := exists_runEndsIn_of_not_neverEnds hlen hnever
    exact .inr ⟨hnever, r, hr, fun _ => hr.unique⟩

end Sys2Proof.Machine
end

section
/-!
The statement of 70_reset_and_hazards.md: what the result of a safe run excludes.
-/

namespace Sys2Proof.Machine

/-- Settles O49: the run's one result is Halted(out), which is no error record, and a run that never ends has no result. -/
theorem aSafeRunDoesNotEndInAnError : Obligations.ASafeRunDoesNotEndInAnError := by
  rintro cfg image ⟨out, hhalted⟩
  refine ⟨fun record herror => ?_, fun hnever => hnever.not_runEndsIn _ hhalted⟩
  exact RunResult.noConfusion (hhalted.unique herror)

end Sys2Proof.Machine
end
